-- ==== Sys2Proof/Word.lean ====
section
/-! DEFINITION. The words of the machine: bytes, 16-bit words, register numbers (spec/00_scope.md R9, R11). -/

namespace Sys2Proof

/-- `u8` of spec/00_scope.md R9. -/
abbrev Byte := BitVec 8

/-- `u16` of spec/00_scope.md R9: an instruction word, PC, I, a stack slot. -/
abbrev Word := BitVec 16

/-- `u12` of spec/00_scope.md R9: the address immediate `nnn`. -/
abbrev Addr12 := BitVec 12

/-- A register number 0..15 (spec/10_state.md R31), V0 to VF. -/
abbrev Reg := Fin 16

/-- The number of VF, the flag register (spec/10_state.md R32). -/
abbrev regF : Reg := 15

/-- A count or index 0..15 taken from one nibble (spec/30_encoding.md R83). -/
abbrev Nibble := Fin 16

end Sys2Proof
end

