-- ==== Sys2Proof/Machine/Flags.lean ====
section
/-! DEFINITION. Every flag computation of the ISA: the ALU primitives of spec/41_alu.md R130, the shifts of R140 and R142,
and the 16-bit carry of spec/42_index_memory.md R172. Each returns the result and the flag bit. -/

namespace Sys2Proof.Machine

/-- The byte VF holds for a flag: always 0 or 1 (spec/10_state.md R32). -/
def flagByte (b : Bool) : Byte := if b then 1 else 0

/-- `Add8` (spec/41_alu.md R130): the flag is the carry out of bit 7. -/
def add8 (a b : Byte) : Byte × Bool :=
  (BitVec.ofNat 8 (a.toNat + b.toNat), decide (a.toNat + b.toNat > 255))

/-- `Sub8` (spec/41_alu.md R130): the flag is NOT borrow. -/
def sub8 (a b : Byte) : Byte × Bool :=
  (BitVec.ofNat 8 (a.toNat + 256 - b.toNat), decide (a.toNat ≥ b.toNat))

/-- Right shift by one: the flag is bit 0 before the shift (spec/41_alu.md R140). -/
def shiftRight8 (s : Byte) : Byte × Bool := (s >>> 1, s.getLsbD 0)

/-- Left shift by one: the flag is bit 7 before the shift (spec/41_alu.md R142). -/
def shiftLeft8 (s : Byte) : Byte × Bool := (s <<< 1, s.getLsbD 7)

/-- The sum of I and a register: the flag is the carry out of bit 15 (spec/42_index_memory.md R172). -/
def addIndex (i : Word) (v : Byte) : Word × Bool :=
  (BitVec.ofNat 16 (i.toNat + v.toNat), decide (i.toNat + v.toNat > 0xFFFF))

end Sys2Proof.Machine
end

