-- ==== Sys2Proof/Config.lean ====
section
/-! DEFINITION. What an implementation fixes (spec/00_scope.md R8) and the free value of the model, the random byte. -/

namespace Sys2Proof

/-- `SHIFT_SOURCE` of spec/00_scope.md R8: which register 8xy6, 8xy8 and 8xyE shift. -/
inductive ShiftSource where
  | y
  | x
  deriving DecidableEq, Repr

/-- `DECODE_8XY8` of spec/00_scope.md R8: whether the word 8xy8 is a left shift or an unknown opcode. -/
inductive Decode8xy8 where
  | shl
  | unknown
  deriving DecidableEq, Repr

/-- The two behaviour parameters of spec/00_scope.md R8, fixed for the life of a Machine State (spec/10_state.md R48). -/
structure Params where
  shiftSource : ShiftSource
  decode8xy8 : Decode8xy8
  deriving DecidableEq, Repr

/-- `PROG_START` of spec/00_scope.md R8. -/
abbrev progStart : Nat := 0x200

/-- The longest program image, 4096 - 0x200 bytes (spec/70_reset_and_hazards.md R280). -/
abbrev maxImage : Nat := 3584

/-- FREE VALUE (log entry 3): the byte the random source gives at its `n`-th call (spec/00_scope.md R14,
spec/10_state.md R50). It has no body, so nothing can be proved of it but what holds of every byte. -/
opaque Config.randByte : Nat → Byte

end Sys2Proof
end

