-- ==== Sys2Proof/Machine/Defaults.lean ====
section
/-! DEFINITION. The default values of the parameters of spec/00_scope.md R8: SHIFT_SOURCE, DECODE_8XY8, MEM_FILL, FONT. -/

namespace Sys2Proof.Machine

/-- The spec's defaults, `SHIFT_SOURCE = Y` and `DECODE_8XY8 = SHL` (spec/00_scope.md R8; spec/92_eei_decisions.md D9,
D10). UNVERIFIED (log entry 4): no source settles them. -/
def defaultParams : Params := { shiftSource := .y, decode8xy8 := .shl }

/-- `MEM_FILL`: what a byte that construction does not load holds (spec/10_state.md R49; spec/92_eei_decisions.md D12).
UNVERIFIED (log entry 6). -/
def memFill : Byte := 0x00

/-- `FONT`, the 80 font bytes, glyph g at address 5 g (spec/70_reset_and_hazards.md R283; spec/92_eei_decisions.md D13).
UNVERIFIED (log entry 5): the conventional digits, not in the source. -/
def defaultFont : List Byte :=
  [0xF0, 0x90, 0x90, 0x90, 0xF0] ++ [0x20, 0x60, 0x20, 0x20, 0x70] ++
  [0xF0, 0x10, 0xF0, 0x80, 0xF0] ++ [0xF0, 0x10, 0xF0, 0x10, 0xF0] ++
  [0x90, 0x90, 0xF0, 0x10, 0x10] ++ [0xF0, 0x80, 0xF0, 0x10, 0xF0] ++
  [0xF0, 0x80, 0xF0, 0x90, 0xF0] ++ [0xF0, 0x10, 0x20, 0x40, 0x40] ++
  [0xF0, 0x90, 0xF0, 0x90, 0xF0] ++ [0xF0, 0x90, 0xF0, 0x10, 0xF0] ++
  [0xF0, 0x90, 0xF0, 0x90, 0x90] ++ [0xE0, 0x90, 0xE0, 0x90, 0xE0] ++
  [0xF0, 0x80, 0x80, 0x80, 0xF0] ++ [0xE0, 0x90, 0x90, 0x90, 0xE0] ++
  [0xF0, 0x80, 0xF0, 0x80, 0xF0] ++ [0xF0, 0x80, 0xF0, 0x80, 0x80]

end Sys2Proof.Machine
end

