-- ==== Sys2Proof/WellFormed.lean ====
section
/-! DEFINITION. Which instructions exist under a setting of `DECODE_8XY8` (spec/30_encoding.md R84, R90). Every operand
field already has its exact range in its type, so the one check left is the row 8xy8 (spec/41_alu.md R143). -/

namespace Sys2Proof

/-- The instruction has an encoding that decodes to it: all rows always, 8xy8 only when `DECODE_8XY8 = SHL`
(spec/30_encoding.md R85, R86). -/
def Instr.wellFormed (d : Decode8xy8) (i : Instr) : Bool :=
  match i with
  | .shl8 _ _ => decide (d = .shl)
  | .cls => true
  | .ret => true
  | .jp _ => true
  | .call _ => true
  | .seImm _ _ => true
  | .sneImm _ _ => true
  | .seReg _ _ => true
  | .ldImm _ _ => true
  | .addImm _ _ => true
  | .ldReg _ _ => true
  | .orReg _ _ => true
  | .andReg _ _ => true
  | .xorReg _ _ => true
  | .addReg _ _ => true
  | .subReg _ _ => true
  | .shr _ _ => true
  | .subn _ _ => true
  | .shl _ _ => true
  | .sneReg _ _ => true
  | .ldI _ => true
  | .jpV0 _ => true
  | .rnd _ _ => true
  | .drw _ _ _ => true
  | .skp _ => true
  | .sknp _ => true
  | .ldVxDt _ => true
  | .ldVxK _ => true
  | .ldDtVx _ => true
  | .ldStVx _ => true
  | .addI _ => true
  | .ldF _ => true
  | .ldB _ => true
  | .storeRegs _ => true
  | .loadRegs _ => true

end Sys2Proof
end

