-- ==== Sys2Proof/Decode.lean ====
section
/-! DEFINITION. Decoding and encoding of the one 16-bit format (spec/30_encoding.md R82 to R90), and the opcode map as a
table of masks and patterns (spec/30_encoding.md R85, spec/opcode_table.json). -/

namespace Sys2Proof

/-- Why bytes are not an instruction: the named rejections of the decoder. -/
inductive DecodeError where
  /-- Fewer than the two bytes of an instruction (spec/30_encoding.md R90). -/
  | truncated
  /-- The word matches no row of spec/30_encoding.md R85; the step raises `UNKNOWN_OPCODE` (R87). -/
  | unknownOpcode (w : Word)
  deriving DecidableEq, Repr

/-- The nibble tuple `(F, X, Y, N)` of spec/30_encoding.md R82. -/
structure Nibbles where
  f : Nibble
  x : Nibble
  y : Nibble
  n : Nibble
  deriving DecidableEq, Repr

/-- `w[hi:lo]` for a nibble whose low bit is `lo` (spec/00_scope.md R9). -/
def nibbleAt (w : Word) (lo : Nat) : Nibble := (w.extractLsb' lo 4).toFin

/-- The four nibbles of a word (spec/30_encoding.md R82). -/
def nibblesOf (w : Word) : Nibbles :=
  { f := nibbleAt w 12, x := nibbleAt w 8, y := nibbleAt w 4, n := nibbleAt w 0 }

/-- Field `KK`, w[7:0] (spec/30_encoding.md R82). -/
def byteField (w : Word) : Byte := w.extractLsb' 0 8

/-- Field `NNN`, w[11:0] (spec/30_encoding.md R82). -/
def addrField (w : Word) : Addr12 := w.extractLsb' 0 12

/-- The word whose first byte, at the lower address, is `hi`: instructions are big-endian (spec/20_memory.md R62). -/
def wordOfBytes (hi lo : Byte) : Word := hi ++ lo

/-- The byte at the lower address of a word in memory, bits 15:8 (spec/20_memory.md R62). -/
def highByte (w : Word) : Byte := w.extractLsb' 8 8

/-- The byte at the higher address of a word in memory, bits 7:0 (spec/20_memory.md R62). -/
def lowByte (w : Word) : Byte := w.extractLsb' 0 8

/-- Family 0: the exact words 00E0 and 00EE (spec/30_encoding.md R86). -/
def decodeFamily0 (w : Word) : Except DecodeError Instr :=
  if w = 0x00E0 then .ok .cls else if w = 0x00EE then .ok .ret else .error (.unknownOpcode w)

/-- Families 5 and 9 decode only with N = 0 (spec/30_encoding.md R86). -/
def decodeN0 (w : Word) (mk : Reg → Reg → Instr) : Except DecodeError Instr :=
  match (nibblesOf w).n.val with
  | 0 => .ok (mk (nibblesOf w).x (nibblesOf w).y)
  | _ => .error (.unknownOpcode w)

/-- Family 8, selected by N (spec/30_encoding.md R85, R86; spec/90_conflicts.md C1 for N = 8 and E). -/
def decodeFamily8 (d : Decode8xy8) (w : Word) : Except DecodeError Instr :=
  match (nibblesOf w).n.val with
  | 0x0 => .ok (.ldReg (nibblesOf w).x (nibblesOf w).y)
  | 0x1 => .ok (.orReg (nibblesOf w).x (nibblesOf w).y)
  | 0x2 => .ok (.andReg (nibblesOf w).x (nibblesOf w).y)
  | 0x3 => .ok (.xorReg (nibblesOf w).x (nibblesOf w).y)
  | 0x4 => .ok (.addReg (nibblesOf w).x (nibblesOf w).y)
  | 0x5 => .ok (.subReg (nibblesOf w).x (nibblesOf w).y)
  | 0x6 => .ok (.shr (nibblesOf w).x (nibblesOf w).y)
  | 0x7 => .ok (.subn (nibblesOf w).x (nibblesOf w).y)
  | 0x8 =>
    match d with
    | .shl => .ok (.shl8 (nibblesOf w).x (nibblesOf w).y)
    | .unknown => .error (.unknownOpcode w)
  | 0xE => .ok (.shl (nibblesOf w).x (nibblesOf w).y)
  | _ => .error (.unknownOpcode w)

/-- Family E, selected by the low byte (spec/30_encoding.md R85, R86). -/
def decodeFamilyE (w : Word) : Except DecodeError Instr :=
  match (byteField w).toNat with
  | 0x9E => .ok (.skp (nibblesOf w).x)
  | 0xA1 => .ok (.sknp (nibblesOf w).x)
  | _ => .error (.unknownOpcode w)

/-- Family F, selected by the low byte (spec/30_encoding.md R85, R86). -/
def decodeFamilyF (w : Word) : Except DecodeError Instr :=
  match (byteField w).toNat with
  | 0x07 => .ok (.ldVxDt (nibblesOf w).x)
  | 0x0A => .ok (.ldVxK (nibblesOf w).x)
  | 0x15 => .ok (.ldDtVx (nibblesOf w).x)
  | 0x18 => .ok (.ldStVx (nibblesOf w).x)
  | 0x1E => .ok (.addI (nibblesOf w).x)
  | 0x29 => .ok (.ldF (nibblesOf w).x)
  | 0x33 => .ok (.ldB (nibblesOf w).x)
  | 0x55 => .ok (.storeRegs (nibblesOf w).x)
  | 0x65 => .ok (.loadRegs (nibblesOf w).x)
  | _ => .error (.unknownOpcode w)

/-- Dispatch: a pure function of the nibble tuple and of `DECODE_8XY8` (spec/30_encoding.md R84, R85). The last case is
there for totality alone: a nibble has only the sixteen values above it. -/
def decodeWord (d : Decode8xy8) (w : Word) : Except DecodeError Instr :=
  match (nibblesOf w).f.val with
  | 0x0 => decodeFamily0 w
  | 0x1 => .ok (.jp (addrField w))
  | 0x2 => .ok (.call (addrField w))
  | 0x3 => .ok (.seImm (nibblesOf w).x (byteField w))
  | 0x4 => .ok (.sneImm (nibblesOf w).x (byteField w))
  | 0x5 => decodeN0 w .seReg
  | 0x6 => .ok (.ldImm (nibblesOf w).x (byteField w))
  | 0x7 => .ok (.addImm (nibblesOf w).x (byteField w))
  | 0x8 => decodeFamily8 d w
  | 0x9 => decodeN0 w .sneReg
  | 0xA => .ok (.ldI (addrField w))
  | 0xB => .ok (.jpV0 (addrField w))
  | 0xC => .ok (.rnd (nibblesOf w).x (byteField w))
  | 0xD => .ok (.drw (nibblesOf w).x (nibblesOf w).y (nibblesOf w).n)
  | 0xE => decodeFamilyE w
  | 0xF => decodeFamilyF w
  | _ => .error (.unknownOpcode w)

/-- Decode any bytes: the instruction of the first two, big-endian, and the bytes after it (spec/20_memory.md R62,
spec/30_encoding.md R90). -/
def decodeBytes (d : Decode8xy8) (bs : List Byte) : Except DecodeError (Instr × List Byte) :=
  match bs with
  | hi :: lo :: rest =>
    match decodeWord d (wordOfBytes hi lo) with
    | .ok i => .ok (i, rest)
    | .error e => .error e
  | [_] => .error .truncated
  | [] => .error .truncated

/-- A word from four nibbles, `F` in bits 15:12 (spec/30_encoding.md R82). -/
def packXYN (f x y n : Nibble) : Word :=
  BitVec.ofFin (w := 4) f ++ BitVec.ofFin (w := 4) x ++ BitVec.ofFin (w := 4) y ++ BitVec.ofFin (w := 4) n

/-- A word from `F`, `X` and `KK` (spec/30_encoding.md R82). -/
def packXKK (f x : Nibble) (kk : Byte) : Word := BitVec.ofFin (w := 4) f ++ BitVec.ofFin (w := 4) x ++ kk

/-- A word from `F` and `NNN` (spec/30_encoding.md R82). -/
def packNNN (f : Nibble) (nnn : Addr12) : Word := BitVec.ofFin (w := 4) f ++ nnn

/-- The word of an instruction, written from the patterns of spec/30_encoding.md R85. -/
def encode (i : Instr) : Word :=
  match i with
  | .cls => 0x00E0
  | .ret => 0x00EE
  | .jp nnn => packNNN 0x1 nnn
  | .call nnn => packNNN 0x2 nnn
  | .seImm x kk => packXKK 0x3 x kk
  | .sneImm x kk => packXKK 0x4 x kk
  | .seReg x y => packXYN 0x5 x y 0x0
  | .ldImm x kk => packXKK 0x6 x kk
  | .addImm x kk => packXKK 0x7 x kk
  | .ldReg x y => packXYN 0x8 x y 0x0
  | .orReg x y => packXYN 0x8 x y 0x1
  | .andReg x y => packXYN 0x8 x y 0x2
  | .xorReg x y => packXYN 0x8 x y 0x3
  | .addReg x y => packXYN 0x8 x y 0x4
  | .subReg x y => packXYN 0x8 x y 0x5
  | .shr x y => packXYN 0x8 x y 0x6
  | .subn x y => packXYN 0x8 x y 0x7
  | .shl8 x y => packXYN 0x8 x y 0x8
  | .shl x y => packXYN 0x8 x y 0xE
  | .sneReg x y => packXYN 0x9 x y 0x0
  | .ldI nnn => packNNN 0xA nnn
  | .jpV0 nnn => packNNN 0xB nnn
  | .rnd x kk => packXKK 0xC x kk
  | .drw x y n => packXYN 0xD x y n
  | .skp x => packXKK 0xE x 0x9E
  | .sknp x => packXKK 0xE x 0xA1
  | .ldVxDt x => packXKK 0xF x 0x07
  | .ldVxK x => packXKK 0xF x 0x0A
  | .ldDtVx x => packXKK 0xF x 0x15
  | .ldStVx x => packXKK 0xF x 0x18
  | .addI x => packXKK 0xF x 0x1E
  | .ldF x => packXKK 0xF x 0x29
  | .ldB x => packXKK 0xF x 0x33
  | .storeRegs x => packXKK 0xF x 0x55
  | .loadRegs x => packXKK 0xF x 0x65

/-- The two bytes of an instruction as they lie in memory, the first at the lower address (spec/20_memory.md R62). -/
def encodeBytes (i : Instr) : List Byte := [highByte (encode i), lowByte (encode i)]

/-- One row of the opcode map: a word `w` matches it when `w &&& mask = pattern` (spec/opcode_table.json). -/
structure OpcodeRow where
  mask : Word
  pattern : Word
  deriving DecidableEq, Repr

/-- The row matches the word w. -/
def OpcodeRow.selects (r : OpcodeRow) (w : Word) : Bool := decide (w &&& r.mask = r.pattern)

/-- The rows of spec/30_encoding.md R85 in the table's order, with the masks and patterns of spec/opcode_table.json. -/
def opcodeRows (d : Decode8xy8) : List OpcodeRow :=
  [⟨0xFFFF, 0x00E0⟩, ⟨0xFFFF, 0x00EE⟩, ⟨0xF000, 0x1000⟩, ⟨0xF000, 0x2000⟩, ⟨0xF000, 0x3000⟩, ⟨0xF000, 0x4000⟩] ++
  [⟨0xF00F, 0x5000⟩, ⟨0xF000, 0x6000⟩, ⟨0xF000, 0x7000⟩, ⟨0xF00F, 0x8000⟩, ⟨0xF00F, 0x8001⟩, ⟨0xF00F, 0x8002⟩] ++
  [⟨0xF00F, 0x8003⟩, ⟨0xF00F, 0x8004⟩, ⟨0xF00F, 0x8005⟩, ⟨0xF00F, 0x8006⟩, ⟨0xF00F, 0x8007⟩] ++
  (match d with | .shl => [⟨0xF00F, 0x8008⟩] | .unknown => []) ++
  [⟨0xF00F, 0x800E⟩, ⟨0xF00F, 0x9000⟩, ⟨0xF000, 0xA000⟩, ⟨0xF000, 0xB000⟩, ⟨0xF000, 0xC000⟩, ⟨0xF000, 0xD000⟩] ++
  [⟨0xF0FF, 0xE09E⟩, ⟨0xF0FF, 0xE0A1⟩, ⟨0xF0FF, 0xF007⟩, ⟨0xF0FF, 0xF00A⟩, ⟨0xF0FF, 0xF015⟩, ⟨0xF0FF, 0xF018⟩] ++
  [⟨0xF0FF, 0xF01E⟩, ⟨0xF0FF, 0xF029⟩, ⟨0xF0FF, 0xF033⟩, ⟨0xF0FF, 0xF055⟩, ⟨0xF0FF, 0xF065⟩]

/-- The word of an opcode-table entry: its `nbits` bits, every bit above them zero. -/
def tableWord (nbits w : Nat) : Word := BitVec.ofNat 16 (w % 2 ^ nbits)

/-- The instruction the decoder reads, with the default parameters, from the bytes of an opcode-table word laid out as the
hardware stores them. -/
def decodeTableWord (nbits w : Nat) : Option Instr :=
  match decodeBytes Machine.defaultParams.decode8xy8 [highByte (tableWord nbits w), lowByte (tableWord nbits w)] with
  | .ok (i, _) => some i
  | .error _ => none

end Sys2Proof
end

