-- ==== Sys2Proof/Machine/Memory.lean ====
section
/-! DEFINITION. The memory: 4096 bytes (spec/20_memory.md R60) as a list of the bytes that differ from construction. -/

namespace Sys2Proof.Machine

/-- Memory as (address, byte) pairs, addresses strictly rising, no pair equal to what construction left there. -/
abbrev Memory := List Host.Cell

/-- What a byte that no instruction has written holds: the font at 0x000-0x04F, MEM_FILL elsewhere
(spec/10_state.md R49, spec/20_memory.md R68). UNVERIFIED (log entries 5 and 6). -/
def Memory.unlisted (a : Nat) : Byte := defaultFont.getD a memFill

/-- The byte at an address (spec/00_scope.md R12 `MemRead`); callers have checked the range (spec/20_memory.md R63). -/
def Memory.read : Memory → Nat → Byte
  | [], a => Memory.unlisted a
  | (b, v) :: m, a => if a = b then v else Memory.read m a

/-- Store one byte (spec/00_scope.md R12 `MemWrite`), keeping the canonical form; callers have checked the range. -/
def Memory.write : Memory → Nat → Byte → Memory
  | [], a, v => if v = Memory.unlisted a then [] else [(a, v)]
  | (b, w) :: m, a, v =>
    if a < b then
      if v = Memory.unlisted a then (b, w) :: m else (a, v) :: (b, w) :: m
    else if a = b then
      if v = Memory.unlisted a then m else (a, v) :: m
    else (b, w) :: Memory.write m a v

/-- Store bytes at rising addresses, in order. -/
def Memory.writeBytes : Memory → Nat → List Byte → Memory
  | m, _, [] => m
  | m, a, v :: vs => Memory.writeBytes (Memory.write m a v) (a + 1) vs

/-- The `n` bytes from an address on, in order. -/
def Memory.readBytes : Memory → Nat → Nat → List Byte
  | _, _, 0 => []
  | m, a, n + 1 => Memory.read m a :: Memory.readBytes m (a + 1) n

/-- The canonical form from address `lo` on: addresses rise strictly, lie in 0x000-0xFFF, and no pair repeats what an
unlisted address reads as. -/
def Memory.wfFrom : Nat → Memory → Bool
  | _, [] => true
  | lo, (a, v) :: m =>
    decide (lo ≤ a) && decide (a < 0x1000) && decide (v ≠ Memory.unlisted a) && Memory.wfFrom (a + 1) m

/-- The canonical form of the whole memory. -/
def Memory.wf (m : Memory) : Bool := Memory.wfFrom 0 m

end Sys2Proof.Machine
end

