-- ==== Sys2Proof/Machine/State.lean ====
section
/-! DEFINITION. The Machine State (spec/10_state.md R30), the faults (spec/60_exceptions.md R250), and the state after
construction (spec/10_state.md R49). -/

namespace Sys2Proof.Machine

/-- The synchronous faults, exactly those of spec/60_exceptions.md R250. A fault is never an outcome `fault` of a step:
spec/60_exceptions.md R253 and R254 give it its effect, so the step answers the NEXT state whose `halt` holds the record
(log entry 2). All are safe: the spec itself stops the core there. -/
inductive Fault where
  /-- Code 1 `UNKNOWN_OPCODE`. Raised by decode in any step, when the word matches no row of spec/30_encoding.md R85.
  Safe: the spec's own fault. -/
  | unknownOpcode
  /-- Code 2 `FETCH_RANGE`. Raised by fetch in any step, when `PC > 0xFFE` (spec/30_encoding.md R80). Safe: the spec's
  own fault. -/
  | fetchRange
  /-- Code 3 `MEM_RANGE`. Raised by Dxyn, Fx33, Fx55 and Fx65; `addr` is the first address above 0xFFF
  (spec/20_memory.md R63). Safe: the spec's own fault. -/
  | memRange (addr : Nat)
  /-- Code 4 `STACK_OVERFLOW`. Raised by 2nnn with SP = 16 (spec/40_control.md R104). Safe: the spec's own fault. -/
  | stackOverflow
  /-- Code 5 `STACK_UNDERFLOW`. Raised by 00EE with SP = 0 (spec/40_control.md R102). Safe: the spec's own fault. -/
  | stackUnderflow
  /-- Code 6 `KEY_RANGE`. Raised by Ex9E and ExA1 with V[x] > 15; `key` is V[x] (spec/44_timers_keys.md R220, R221).
  Safe: the spec's own fault. -/
  | keyRange (key : Byte)
  deriving DecidableEq, Repr

/-- Why the model gives no answer. -/
inductive Refusal where
  /-- Raised by an arm of `exec` whose instruction has no meaning yet; no arm of this model does so. Safe. -/
  | notModelled (mnemonic : String)
  /-- Raised by the host's pixel query outside the 64 x 32 framebuffer, which the spec says the model refuses
  (spec/70_reset_and_hazards.md R297). No step raises it. Safe. -/
  | pixelOutside (x y : Nat)
  deriving DecidableEq, Repr

/-- The fault record of spec/60_exceptions.md R252. The code, the nibble tuple and the extra value are read off it
(`FaultRecord.code`, `FaultRecord.nibbles`, `FaultRecord.extra`). -/
structure FaultRecord where
  /-- Which fault, with its extra value. -/
  fault : Fault
  /-- The address `A` of the instruction. -/
  addr : Word
  /-- The instruction word, none for `FETCH_RANGE`. -/
  word : Option Word
  deriving DecidableEq, Repr

/-- The framebuffer: 32 rows of 64 cells, on or off (spec/10_state.md R45). -/
abbrev Framebuffer := Vector (Vector Bool 64) 32

/-- The Machine State (spec/10_state.md R30), with two fields of the model's own at the end. -/
structure State where
  /-- `MEM` (R30; spec/20_memory.md R60). -/
  mem : Memory
  /-- `V[0..15]` (R31). -/
  v : Vector Byte 16
  /-- `I` (R35). -/
  i : Word
  /-- `PC` (R37). -/
  pc : Word
  /-- `SP`, the number of occupied stack slots (R40). -/
  sp : Fin 17
  /-- `STACK[0..15]` (R40). -/
  stack : Vector Word 16
  /-- `DT` (R43). -/
  dt : Byte
  /-- `ST` (R43). -/
  st : Byte
  /-- `KEY[0..15]`, true when pressed (R44). -/
  key : Vector Bool 16
  /-- `FB[y][x]` (R45). -/
  fb : Framebuffer
  /-- `HALT` (R46). -/
  halt : Option FaultRecord
  /-- The model's own (log entry 3): how many random bytes have been drawn, the index of the next free byte. -/
  draws : Nat
  /-- The model's own place (log entry 4) for the parameters of spec/00_scope.md R8, which nothing writes. -/
  params : Params
  deriving DecidableEq, Repr

/-- The state after construction with an empty image and the default parameters (spec/10_state.md R49,
spec/70_reset_and_hazards.md R281). PC is the document's; the other values are the spec's decision D12 (log entry 7);
`draws = 0` is a DESIGN CHOICE (log entry 3). -/
def State.reset : State where
  mem := []
  v := Vector.replicate 16 0
  i := 0
  pc := BitVec.ofNat 16 progStart
  sp := 0
  stack := Vector.replicate 16 0
  dt := 0
  st := 0
  key := Vector.replicate 16 false
  fb := Vector.replicate 32 (Vector.replicate 64 false)
  halt := none
  draws := 0
  params := defaultParams

end Sys2Proof.Machine
end

