-- ==== Sys2Proof/Machine/Operands.lean ====
section
/-! DEFINITION. Every operand form: registers, the shift source, the immediates as 16-bit values, the I-relative address
(spec/00_scope.md R11, spec/30_encoding.md R83, spec/42_index_memory.md R170), the key index, and the views of a fault record. -/

namespace Sys2Proof.Machine

/-- `V[r]` (spec/00_scope.md R11). -/
def State.getV (s : State) (r : Reg) : Byte := s.v[r]

/-- `V[r] <- b` (spec/00_scope.md R11). -/
def State.setV (s : State) (r : Reg) (b : Byte) : State := { s with v := s.v.set r.val b r.isLt }

/-- `I <- w`. -/
def State.setI (s : State) (w : Word) : State := { s with i := w }

/-- `pc <- w`, with no alignment check and no range check (spec/40_control.md R100). -/
def State.setPc (s : State) (w : Word) : State := { s with pc := w }

/-- The memory replaced. -/
def State.setMem (s : State) (m : Memory) : State := { s with mem := m }

/-- `DT <- b`. -/
def State.setDt (s : State) (b : Byte) : State := { s with dt := b }

/-- `ST <- b`. -/
def State.setSt (s : State) (b : Byte) : State := { s with st := b }

/-- The framebuffer replaced. -/
def State.setFb (s : State) (f : Framebuffer) : State := { s with fb := f }

/-- `zext_16(nnn)` (spec/30_encoding.md R83). -/
def addrImm (nnn : Addr12) : Word := nnn.zeroExtend 16

/-- `zext_16` of a byte (spec/00_scope.md R9). -/
def byteImm (b : Byte) : Word := b.zeroExtend 16

/-- The source of the shift instructions: V[y] when `SHIFT_SOURCE = Y`, V[x] when it is `X` (spec/41_alu.md R140, R142). -/
def State.shiftOperand (s : State) (x y : Reg) : Byte :=
  match s.params.shiftSource with
  | .y => s.getV y
  | .x => s.getV x

/-- The base address of every data access: I as an unbounded integer, to which the offset is added without wrapping
(spec/42_index_memory.md R170, spec/20_memory.md R61). -/
def State.base (s : State) : Nat := s.i.toNat

/-- `KEY[k]` (spec/10_state.md R44). -/
def State.keyPressed (s : State) (k : Fin 16) : Bool := s.key[k]

/-- `FB[row][column] = 1` (spec/10_state.md R45). -/
def cellOn (f : Framebuffer) (row : Fin 32) (col : Fin 64) : Bool := f[row][col]

/-- The numeric code of a fault (spec/60_exceptions.md R250). -/
def Fault.code (f : Fault) : Nat :=
  match f with
  | .unknownOpcode => 1
  | .fetchRange => 2
  | .memRange _ => 3
  | .stackOverflow => 4
  | .stackUnderflow => 5
  | .keyRange _ => 6

/-- The code of a fault record (spec/60_exceptions.md R252). -/
def FaultRecord.code (r : FaultRecord) : Nat := r.fault.code

/-- The nibble tuple of a fault record, none when there is no word (spec/60_exceptions.md R252). -/
def FaultRecord.nibbles (r : FaultRecord) : Option Nibbles := r.word.map nibblesOf

/-- The extra value a fault record holds beside the word: the address of `MEM_RANGE`, the key of `KEY_RANGE`
(spec/60_exceptions.md R250). -/
def FaultRecord.extra (r : FaultRecord) : Option Nat :=
  match r.fault with
  | .unknownOpcode => none
  | .fetchRange => none
  | .memRange a => some a
  | .stackOverflow => none
  | .stackUnderflow => none
  | .keyRange k => some k.toNat

end Sys2Proof.Machine
end

