-- ==== Sys2Proof/Machine/Ops.lean ====
section
/-! DEFINITION. The named operations every meaning is written in: raising a fault and committing an instruction
(spec/00_scope.md R13, spec/60_exceptions.md R253), the PC (spec/30_encoding.md R81, spec/40_control.md R101), the stack
(spec/10_state.md R41), checked memory (spec/20_memory.md R63, R64), flags, the random byte, fetching.

There is no exception handler and no return from exception in this hardware (spec/60_exceptions.md R257): taking a fault
is `State.raise`, and what follows it is the halt of R254. -/

namespace Sys2Proof.Machine

/-- What a step or an instruction answers. -/
abbrev Result := Host.Outcome State Fault Refusal

/-- `raise` (spec/00_scope.md R13, spec/60_exceptions.md R253): the state before the step with `HALT <- record` and
nothing else changed; PC still holds the instruction's address A. -/
def State.raise (s : State) (f : Fault) (w : Option Word) : State :=
  { s with halt := some { fault := f, addr := s.pc, word := w } }

/-- `PC <- A +_16 2`, made after the fetch and before the instruction executes (spec/30_encoding.md R81). -/
def State.advance (s : State) : State := s.setPc (s.pc + 2)

/-- Execute the decoded instruction `i` at `s`, whose PC is the instruction's own address A: its body runs with
`PC = A + 2` (spec/00_scope.md R15); if it raises, nothing of it is committed (spec/60_exceptions.md R253) and the record
holds A and the instruction's word (R252). -/
def State.commit (s : State) (i : Instr) (body : State → Except Fault State) : Result :=
  match body s.advance with
  | .ok t => .next t
  | .error f => .next (s.raise f (some (encode i)))

/-- Skip when the condition holds: `PC <- PC +_16 2` (spec/40_control.md R101). -/
def State.skipIf (s : State) (c : Bool) : State := if c then s.setPc (s.pc + 2) else s

/-- Write a result to V[x] first and the flag to VF last, both operands having been read (spec/41_alu.md R131).
UNVERIFIED (log entry 11). -/
def State.setVFlag (s : State) (x : Reg) (r : Byte × Bool) : State := (s.setV x r.1).setV regF (flagByte r.2)

/-- `Push(v)` (spec/10_state.md R41). -/
def State.push (s : State) (w : Word) : Except Fault State :=
  if h : s.sp.val < 16 then
    .ok { s with stack := s.stack.set s.sp.val w h, sp := ⟨s.sp.val + 1, by omega⟩ }
  else .error .stackOverflow

/-- `Pop()` with the popped value written to PC (spec/10_state.md R41, spec/40_control.md R102); the slot keeps its
value. -/
def State.popPc (s : State) : Except Fault State :=
  if h : s.sp.val = 0 then .error .stackUnderflow
  else
    .ok { s with sp := ⟨s.sp.val - 1, by omega⟩, pc := s.stack[s.sp.val - 1]'(by have := s.sp.isLt; omega) }

/-- Every address `a, ..., a + n - 1` is at most 0xFFF (spec/00_scope.md R12). -/
def inRange (a n : Nat) : Bool := decide (n = 0 ∨ a + n ≤ 0x1000)

/-- The first address above 0xFFF among `a, a + 1, ...` (spec/20_memory.md R63). -/
def firstOutside (a : Nat) : Nat := max a 0x1000

/-- `CheckRange(a, n)` made before any write of the instruction (spec/00_scope.md R12, spec/20_memory.md R64), then the
rest of the instruction. -/
def checkRange (a n : Nat) (rest : State) : Except Fault State :=
  if inRange a n then .ok rest else .error (.memRange (firstOutside a))

/-- V[0], ..., V[n - 1] from consecutive bytes at `a`, in ascending order (spec/42_index_memory.md R176). -/
def loadFrom (m : Memory) (a : Nat) : Nat → Vector Byte 16 → Vector Byte 16
  | 0, v => v
  | k + 1, v => (loadFrom m a k v).setIfInBounds k (m.read (a + k))

/-- The bytes V[0], ..., V[x] in order (spec/42_index_memory.md R175). -/
def State.regsTo (s : State) (x : Reg) : List Byte := s.v.toList.take (x.val + 1)

/-- `I <- I +_16 (x + 1)` (spec/42_index_memory.md R175, R176). -/
def State.bumpI (s : State) (x : Reg) : State := s.setI (s.i + BitVec.ofNat 16 (x.val + 1))

/-- The three decimal digits of a byte, hundreds, tens, ones (spec/42_index_memory.md R174). -/
def bcdDigits (b : Byte) : List Byte :=
  [BitVec.ofNat 8 (b.toNat / 100), BitVec.ofNat 8 (b.toNat / 10 % 10), BitVec.ofNat 8 (b.toNat % 10)]

/-- The byte `Rand()` returns at this state: a free value (spec/00_scope.md R14; log entry 3). -/
def State.randByte (s : State) : Byte := Config.randByte s.draws

/-- One byte has been drawn (spec/41_alu.md R144). -/
def State.countDraw (s : State) : State := { s with draws := s.draws + 1 }

/-- The least pressed key, if any (spec/44_timers_keys.md R222). -/
def State.leastPressed (s : State) : Option (Fin 16) := (List.finRange 16).find? s.keyPressed

/-- The two bytes at an address, big-endian (spec/20_memory.md R62). -/
def Memory.readWord (m : Memory) (a : Nat) : Word := wordOfBytes (m.read a) (m.read (a + 1))

/-- Fetch and decode at PC (spec/30_encoding.md R80, R87, R93): the instruction, or the fault and the word it has read.
The range comes before any byte is read, decode after it (spec/60_exceptions.md R255). -/
def State.issue (s : State) : Except (Fault × Option Word) Instr :=
  if s.pc.toNat > 0xFFE then .error (.fetchRange, none)
  else
    match decodeWord s.params.decode8xy8 (s.mem.readWord s.pc.toNat) with
    | .ok i => .ok i
    | .error _ => .error (.unknownOpcode, some (s.mem.readWord s.pc.toNat))

/-- The state with the word stored where the next fetch reads it: at PC, which is first set to the entry point 0x200 when
no word can be fetched at it, on a core that is not halted (log entry 8). -/
def State.placeWord (s : State) (w : Word) : State :=
  let p := if s.pc.toNat > 0xFFE then BitVec.ofNat 16 progStart else s.pc
  { s with pc := p, halt := none, mem := s.mem.writeBytes p.toNat [highByte w, lowByte w] }

end Sys2Proof.Machine
end

