-- ==== Sys2Proof/Machine/Alu.lean ====
section
/-! DEFINITION. Register arithmetic and logic: 6xkk, 7xkk, 8xyN, Cxkk (spec/41_alu.md). -/

namespace Sys2Proof.Machine

/-- LD Vx, kk, 6xkk (spec/41_alu.md R132). -/
def execLdImm (x : Reg) (kk : Byte) (s : State) : Result := s.commit (.ldImm x kk) fun t => .ok (t.setV x kk)

/-- ADD Vx, kk, 7xkk: no flag (spec/41_alu.md R133). -/
def execAddImm (x : Reg) (kk : Byte) (s : State) : Result :=
  s.commit (.addImm x kk) fun t => .ok (t.setV x (add8 (t.getV x) kk).1)

/-- LD Vx, Vy, 8xy0 (spec/41_alu.md R134). UNVERIFIED (log entry 18): the direction. -/
def execLdReg (x y : Reg) (s : State) : Result := s.commit (.ldReg x y) fun t => .ok (t.setV x (t.getV y))

/-- OR Vx, Vy, 8xy1: no flag (spec/41_alu.md R135). UNVERIFIED (log entry 18): the destination. -/
def execOrReg (x y : Reg) (s : State) : Result :=
  s.commit (.orReg x y) fun t => .ok (t.setV x (t.getV x ||| t.getV y))

/-- AND Vx, Vy, 8xy2: no flag (spec/41_alu.md R136). UNVERIFIED (log entry 18): the destination. -/
def execAndReg (x y : Reg) (s : State) : Result :=
  s.commit (.andReg x y) fun t => .ok (t.setV x (t.getV x &&& t.getV y))

/-- XOR Vx, Vy, 8xy3: no flag (spec/41_alu.md R137). UNVERIFIED (log entry 18): the destination. -/
def execXorReg (x y : Reg) (s : State) : Result :=
  s.commit (.xorReg x y) fun t => .ok (t.setV x (t.getV x ^^^ t.getV y))

/-- ADD Vx, Vy, 8xy4: VF is the carry (spec/41_alu.md R138). -/
def execAddReg (x y : Reg) (s : State) : Result :=
  s.commit (.addReg x y) fun t => .ok (t.setVFlag x (add8 (t.getV x) (t.getV y)))

/-- SUB Vx, Vy, 8xy5: VF is NOT borrow (spec/41_alu.md R139). -/
def execSubReg (x y : Reg) (s : State) : Result :=
  s.commit (.subReg x y) fun t => .ok (t.setVFlag x (sub8 (t.getV x) (t.getV y)))

/-- SHR Vx, Vy, 8xy6 (spec/41_alu.md R140). -/
def execShr (x y : Reg) (s : State) : Result :=
  s.commit (.shr x y) fun t => .ok (t.setVFlag x (shiftRight8 (t.shiftOperand x y)))

/-- SUBN Vx, Vy, 8xy7: V[y] - V[x] (spec/41_alu.md R141). -/
def execSubn (x y : Reg) (s : State) : Result :=
  s.commit (.subn x y) fun t => .ok (t.setVFlag x (sub8 (t.getV y) (t.getV x)))

/-- SHL Vx, Vy by its second encoding, 8xy8 (spec/41_alu.md R143). -/
def execShl8 (x y : Reg) (s : State) : Result :=
  s.commit (.shl8 x y) fun t => .ok (t.setVFlag x (shiftLeft8 (t.shiftOperand x y)))

/-- SHL Vx, Vy, 8xyE (spec/41_alu.md R142). -/
def execShl (x y : Reg) (s : State) : Result :=
  s.commit (.shl x y) fun t => .ok (t.setVFlag x (shiftLeft8 (t.shiftOperand x y)))

/-- RND Vx, kk, Cxkk: one byte is drawn at every execution (spec/41_alu.md R144). The byte is a free value (log entry 3). -/
def execRnd (x : Reg) (kk : Byte) (s : State) : Result :=
  s.commit (.rnd x kk) fun t => .ok (t.countDraw.setV x (t.randByte &&& kk))

end Sys2Proof.Machine
end

