-- ==== Sys2Proof/Machine/Control.lean ====
section
/-! DEFINITION. Control transfer: return, jump, call, skips, jump with offset (spec/40_control.md). -/

namespace Sys2Proof.Machine

/-- RET, 00EE (spec/40_control.md R102). -/
def execRet (s : State) : Result := s.commit .ret fun t => t.popPc

/-- JP nnn, 1nnn (spec/40_control.md R103). -/
def execJp (nnn : Addr12) (s : State) : Result := s.commit (.jp nnn) fun t => .ok (t.setPc (addrImm nnn))

/-- CALL nnn, 2nnn: push PC, already `A + 2`, then jump (spec/40_control.md R104). -/
def execCall (nnn : Addr12) (s : State) : Result :=
  s.commit (.call nnn) fun t => (t.push t.pc).map fun u => u.setPc (addrImm nnn)

/-- SE Vx, kk, 3xkk (spec/40_control.md R105). -/
def execSeImm (x : Reg) (kk : Byte) (s : State) : Result :=
  s.commit (.seImm x kk) fun t => .ok (t.skipIf (decide (t.getV x = kk)))

/-- SNE Vx, kk, 4xkk (spec/40_control.md R106). -/
def execSneImm (x : Reg) (kk : Byte) (s : State) : Result :=
  s.commit (.sneImm x kk) fun t => .ok (t.skipIf (decide (t.getV x ≠ kk)))

/-- SE Vx, Vy, 5xy0 (spec/40_control.md R107). -/
def execSeReg (x y : Reg) (s : State) : Result :=
  s.commit (.seReg x y) fun t => .ok (t.skipIf (decide (t.getV x = t.getV y)))

/-- SNE Vx, Vy, 9xy0 (spec/40_control.md R108). -/
def execSneReg (x y : Reg) (s : State) : Result :=
  s.commit (.sneReg x y) fun t => .ok (t.skipIf (decide (t.getV x ≠ t.getV y)))

/-- JP V0, nnn, Bnnn: the 16-bit sum, not masked (spec/40_control.md R109). UNVERIFIED (log entry 10). -/
def execJpV0 (nnn : Addr12) (s : State) : Result :=
  s.commit (.jpV0 nnn) fun t => .ok (t.setPc (addrImm nnn + byteImm (t.getV 0)))

end Sys2Proof.Machine
end

