-- ==== Sys2Proof/Machine/Display.lean ====
section
/-! DEFINITION. The framebuffer instructions 00E0 and Dxyn (spec/43_display.md). -/

namespace Sys2Proof.Machine

/-- Every cell off (spec/43_display.md R203). -/
def clearFb : Framebuffer := Vector.replicate 32 (Vector.replicate 64 false)

/-- A cell's place: row and column. -/
abbrev CellPos := Fin 32 × Fin 64

/-- Where sprite pixel (row `r`, column `c`) drawn at origin (`ox`, `oy`) lands: each axis wraps on its own
(spec/43_display.md R200). -/
def cellAt (ox oy : Byte) (r c : Nat) : CellPos := (Fin.ofNat 32 (oy.toNat + r), Fin.ofNat 64 (ox.toNat + c))

/-- The pixel of column `c` of a sprite row is bit `7 - c` (spec/43_display.md R201). UNVERIFIED (log entry 12). -/
def spritePixel (b : Byte) (c : Nat) : Bool := b.getLsbD (7 - c)

/-- The cells under the pixels of value 1 of one sprite row, columns in ascending order (spec/43_display.md R204). -/
def rowCells (ox oy : Byte) (r : Nat) (b : Byte) : List CellPos :=
  ((List.range 8).filter (spritePixel b)).map (cellAt ox oy r)

/-- The cells under the pixels of value 1 of sprite rows `r`, `r + 1`, ... (spec/43_display.md R204). -/
def spriteCells (ox oy : Byte) : Nat → List Byte → List CellPos
  | _, [] => []
  | r, b :: bs => rowCells ox oy r b ++ spriteCells ox oy (r + 1) bs

/-- One cell XORed with 1. -/
def toggleCell (f : Framebuffer) (p : CellPos) : Framebuffer :=
  f.set p.1.val (f[p.1].set p.2.val (!f[p.1][p.2]) p.2.isLt) p.1.isLt

/-- XOR one pixel of value 1: a collision is a cell that was on before the XOR (spec/43_display.md R202). -/
def plot (d : Framebuffer × Bool) (p : CellPos) : Framebuffer × Bool :=
  (toggleCell d.1 p, if cellOn d.1 p.1 p.2 then true else d.2)

/-- XOR every listed cell, in order; the flag starts at 0 (spec/43_display.md R204). -/
def drawCells (f : Framebuffer) (ps : List CellPos) : Framebuffer × Bool := ps.foldl plot (f, false)

/-- CLS, 00E0 (spec/43_display.md R203). -/
def execCls (s : State) : Result := s.commit .cls fun t => .ok (t.setFb clearFb)

/-- DRW Vx, Vy, n, Dxyn: operands are read before VF is cleared, VF ends as the collision flag (spec/43_display.md R204).
UNVERIFIED (log entries 11, 12, 19). -/
def execDrw (x y : Reg) (n : Nibble) (s : State) : Result :=
  s.commit (.drw x y n) fun t =>
    let d := drawCells t.fb (spriteCells (t.getV x) (t.getV y) 0 (t.mem.readBytes t.base n.val))
    checkRange t.base n.val ((t.setFb d.1).setV regF (flagByte d.2))

end Sys2Proof.Machine
end

