-- ==== Sys2Proof/Machine/IndexMemory.lean ====
section
/-! DEFINITION. The index register and memory transfers: Annn, Fx1E, Fx29, Fx33, Fx55, Fx65 (spec/42_index_memory.md). -/

namespace Sys2Proof.Machine

/-- LD I, nnn, Annn (spec/42_index_memory.md R171). -/
def execLdI (nnn : Addr12) (s : State) : Result := s.commit (.ldI nnn) fun t => .ok (t.setI (addrImm nnn))

/-- ADD I, Vx, Fx1E: 16-bit wrap, the carry in VF (spec/42_index_memory.md R172). -/
def execAddI (x : Reg) (s : State) : Result :=
  s.commit (.addI x) fun t =>
    .ok ((t.setI (addIndex t.i (t.getV x)).1).setV regF (flagByte (addIndex t.i (t.getV x)).2))

/-- LD F, Vx, Fx29: the whole byte times 5 (spec/42_index_memory.md R173). UNVERIFIED (log entry 15). -/
def execLdF (x : Reg) (s : State) : Result := s.commit (.ldF x) fun t => .ok (t.setI (byteImm (t.getV x) * 5))

/-- LD B, Vx, Fx33: the three digits at I, I + 1, I + 2 (spec/42_index_memory.md R174). -/
def execLdB (x : Reg) (s : State) : Result :=
  s.commit (.ldB x) fun t => checkRange t.base 3 (t.setMem (t.mem.writeBytes t.base (bcdDigits (t.getV x))))

/-- LD [I], Vx, Fx55: V[0..x] to memory, then I advances by x + 1 (spec/42_index_memory.md R175). -/
def execStoreRegs (x : Reg) (s : State) : Result :=
  s.commit (.storeRegs x) fun t =>
    checkRange t.base (x.val + 1) ((t.setMem (t.mem.writeBytes t.base (t.regsTo x))).bumpI x)

/-- LD Vx, [I], Fx65: V[0..x] from memory, then I advances by x + 1 (spec/42_index_memory.md R176). -/
def execLoadRegs (x : Reg) (s : State) : Result :=
  s.commit (.loadRegs x) fun t =>
    checkRange t.base (x.val + 1) (State.bumpI { t with v := loadFrom t.mem t.base (x.val + 1) t.v } x)

end Sys2Proof.Machine
end

