-- ==== Sys2Proof/Machine/KeysTimers.lean ====
section
/-! DEFINITION. The key and timer instructions Ex9E, ExA1, Fx07, Fx0A, Fx15, Fx18 (spec/44_timers_keys.md). -/

namespace Sys2Proof.Machine

/-- The state of the key whose index V[x] holds, or `KEY_RANGE` when V[x] > 15 (spec/44_timers_keys.md R220, R221).
UNVERIFIED (log entry 14). -/
def State.keyOperand (s : State) (x : Reg) : Except Fault Bool :=
  if h : (s.getV x).toNat < 16 then .ok (s.keyPressed ⟨(s.getV x).toNat, h⟩) else .error (.keyRange (s.getV x))

/-- SKP Vx, Ex9E (spec/44_timers_keys.md R220). -/
def execSkp (x : Reg) (s : State) : Result := s.commit (.skp x) fun t => (t.keyOperand x).map fun k => t.skipIf k

/-- SKNP Vx, ExA1 (spec/44_timers_keys.md R221). -/
def execSknp (x : Reg) (s : State) : Result := s.commit (.sknp x) fun t => (t.keyOperand x).map fun k => t.skipIf (!k)

/-- LD Vx, DT, Fx07 (spec/44_timers_keys.md R223). UNVERIFIED (log entry 13). -/
def execLdVxDt (x : Reg) (s : State) : Result := s.commit (.ldVxDt x) fun t => .ok (t.setV x t.dt)

/-- LD Vx, K, Fx0A: the least pressed key, or a stall that rewinds PC by 2 to the instruction's own address
(spec/44_timers_keys.md R222). UNVERIFIED (log entry 16): level-sensitive. -/
def execLdVxK (x : Reg) (s : State) : Result :=
  s.commit (.ldVxK x) fun t =>
    match t.leastPressed with
    | some k => .ok (t.setV x (BitVec.ofNat 8 k.val))
    | none => .ok (t.setPc (t.pc - 2))

/-- LD DT, Vx, Fx15 (spec/44_timers_keys.md R224). UNVERIFIED (log entry 13). -/
def execLdDtVx (x : Reg) (s : State) : Result := s.commit (.ldDtVx x) fun t => .ok (t.setDt (t.getV x))

/-- LD ST, Vx, Fx18 (spec/44_timers_keys.md R225). UNVERIFIED (log entry 13). -/
def execLdStVx (x : Reg) (s : State) : Result := s.commit (.ldStVx x) fun t => .ok (t.setSt (t.getV x))

end Sys2Proof.Machine
end

