-- ==== Sys2Proof/Machine/Step.lean ====
section
/-! DEFINITION. One invocation of `execute_instruction()` (spec/30_encoding.md R93). -/

namespace Sys2Proof.Machine

/-- `Step()` of spec/30_encoding.md R93: a halted core changes nothing (spec/60_exceptions.md R254); a fault of fetch or
decode commits nothing but the record (R253); otherwise the decoded instruction executes. -/
def step (s : State) : Host.Outcome State Fault Refusal :=
  match s.halt with
  | some _ => .next s
  | none =>
    match s.issue with
    | .ok i => exec i s
    | .error (f, w) => .next (s.raise f w)

/-- The state with an opcode-table word stored where the next step fetches it (log entry 8). -/
def State.withFetchWord (s : State) (nbits w : Nat) : State := s.placeWord (tableWord nbits w)

end Sys2Proof.Machine
end

