-- ==== Sys2Proof/Machine/HostOps.lean ====
section
/-! DEFINITION. What the host can do: construction (spec/70_reset_and_hazards.md R280, R281), the operations between two
steps (R294 to R297), and runs that interleave them with steps in any order (R298; log entry 1). -/

namespace Sys2Proof.Machine

/-- How many bytes lie above the font, 4096 - 80. -/
def fillCount : Nat := 4016

/-- The 4096 bytes before the image is loaded: the font, then MEM_FILL (spec/70_reset_and_hazards.md R281). -/
def initialBytes (fill : Byte) (font : Vector Byte 80) : List Byte := font.toList ++ List.replicate fillCount fill

/-- Construction from a program image (spec/70_reset_and_hazards.md R280, R281) with any setting of the parameters
SHIFT_SOURCE, DECODE_8XY8, MEM_FILL and FONT (spec/00_scope.md R8; log entry 26): the font at 0x000, MEM_FILL above it, then
the image at 0x200. An image longer than 3584 bytes gives no Machine State. -/
def State.construct (p : Params) (fill : Byte) (font : Vector Byte 80) (image : List Byte) : Option State :=
  if image.length > maxImage then none
  else
    some { State.reset with
      mem := (Memory.writeBytes [] 0 (initialBytes fill font)).writeBytes progStart image
      params := p }

/-- `if t != 0 then t <- t - 1` (spec/70_reset_and_hazards.md R294, R295). -/
def tickDown (t : Byte) : Byte := if t = 0 then 0 else t - 1

/-- `tick_delay()` (spec/70_reset_and_hazards.md R294). -/
def State.tickDelay (s : State) : State := s.setDt (tickDown s.dt)

/-- `tick_sound()` (spec/70_reset_and_hazards.md R295). -/
def State.tickSound (s : State) : State := s.setSt (tickDown s.st)

/-- `sound_tick()`: whether a tone should be playing, ST being nonzero before the decrement, and the new state
(spec/70_reset_and_hazards.md R295). -/
def State.soundTick (s : State) : Bool × State := (decide (s.st ≠ 0), s.setSt (tickDown s.st))

/-- `set_key(k, pressed)`: an index above 15 is ignored (spec/70_reset_and_hazards.md R296). -/
def State.setKey (s : State) (k : Nat) (pressed : Bool) : State := { s with key := s.key.setIfInBounds k pressed }

/-- `pixel(x, y)`: refused outside 64 x 32 (spec/70_reset_and_hazards.md R297). -/
def State.pixel (s : State) (x y : Nat) : Except Refusal Bool :=
  if h : x < 64 ∧ y < 32 then .ok (cellOn s.fb ⟨y, h.2⟩ ⟨x, h.1⟩) else .error (.pixelOutside x y)

/-- One move of a run: a step of the engine or one host operation (spec/70_reset_and_hazards.md R298). -/
inductive Move where
  | execute
  | tickDelay
  | tickSound
  | soundTick
  | setKey (k : Nat) (pressed : Bool)
  | pixel (x y : Nat)
  deriving DecidableEq, Repr

/-- The state after a move. Host operations act on a halted core too (spec/60_exceptions.md R254); a query changes
nothing. -/
def State.move (s : State) (m : Move) : Result :=
  match m with
  | .execute => step s
  | .tickDelay => .next s.tickDelay
  | .tickSound => .next s.tickSound
  | .soundTick => .next s.soundTick.2
  | .setKey k pressed => .next (s.setKey k pressed)
  | .pixel x y =>
    match s.pixel x y with
    | .ok _ => .next s
    | .error r => .refused r

/-- The state after a list of moves: any schedule of the host (spec/70_reset_and_hazards.md R291, R298). -/
def State.moves : List Move → State → Result
  | [], s => .next s
  | m :: ms, s =>
    match s.move m with
    | .next t => State.moves ms t
    | .fault f => .fault f
    | .refused r => .refused r

end Sys2Proof.Machine
end

