-- ==== Sys2Proof/Safety.lean ====
section
/-! DEFINITION. What counts as a good or a bad end of a run (spec/60_exceptions.md R265), the invariant of the machine, and
the words in which statements say what stays unchanged. -/

namespace Sys2Proof.Machine

/-- A run ends badly at any state with `HALT != none` (spec/60_exceptions.md R265). -/
def State.endsBadly (s : State) : Bool := s.halt.isSome

/-- A run ends well at a running state whose instruction at PC is a jump to itself (spec/60_exceptions.md R265). -/
def State.endsWell (s : State) : Bool :=
  match s.halt, s.issue with
  | none, .ok (.jp nnn) => decide (addrImm nnn = s.pc)
  | _, _ => false

/-- A running state stalled in Fx0A with no key pressed: a wait on the host, not an end (spec/60_exceptions.md R265). -/
def State.waitsForKey (s : State) : Bool :=
  match s.halt, s.issue with
  | none, .ok (.ldVxK _) => s.leastPressed.isNone
  | _, _ => false

/-- The invariant: memory is canonical (every listed address inside 0x000-0xFFF); PC is at most 0x10FE
(spec/10_state.md R39); every occupied stack slot holds a return address in 0x002-0x1000 (spec/40_control.md R102). -/
def State.Inv (s : State) : Prop :=
  s.mem.wf = true ∧ s.pc.toNat ≤ 0x10FE ∧
    ∀ j : Fin 16, j.val < s.sp.val → 2 ≤ s.stack[j].toNat ∧ s.stack[j].toNat ≤ 0x1000

/-- Every byte of memory reads as before. -/
def SameMemory (s t : State) : Prop := ∀ a : Nat, t.mem.read a = s.mem.read a

/-- Every general register but those in `P` holds what it held. -/
def SameRegsBut (P : Reg → Prop) (s t : State) : Prop := ∀ r : Reg, ¬ P r → t.getV r = s.getV r

/-- The call stack, its pointer and every slot, is as before. -/
def SameStack (s t : State) : Prop := t.sp = s.sp ∧ t.stack = s.stack

/-- The timers are as before. -/
def SameTimers (s t : State) : Prop := t.dt = s.dt ∧ t.st = s.st

/-- The key state, the halt record, the parameters and the count of random draws are as before. -/
def SameOutside (s t : State) : Prop :=
  t.key = s.key ∧ t.halt = s.halt ∧ t.params = s.params ∧ t.draws = s.draws

/-- Nothing but PC, I and the registers in `P` differs: the frame of an instruction that works on registers and I. -/
def IndexFrame (P : Reg → Prop) (s t : State) : Prop :=
  SameRegsBut P s t ∧ SameMemory s t ∧ SameStack s t ∧ SameTimers s t ∧ t.fb = s.fb ∧ SameOutside s t

/-- Nothing but PC and the registers in `P` differs: the frame of an instruction that works on registers only. -/
def RegisterFrame (P : Reg → Prop) (s t : State) : Prop := t.i = s.i ∧ IndexFrame P s t

/-- No register: the frame of an instruction that writes none. -/
def noReg (_ : Reg) : Prop := False

end Sys2Proof.Machine
end

