-- ==== Sys2Proof/Certificates/Slice0/Obligations.lean ====
section
/-! DEFINITION. The statements about the model, from the numbered rules of spec/. `exec i s` is the instruction `i` executed
at a state whose PC is the instruction's own address A. -/

open Sys2Proof Sys2Proof.Machine

/-! ### Construction -/

/-- What reset leaves: PC 0x200 (the document), the font at 0x000-0x04F, and zero everywhere else, which is the spec's own
decision D12 (spec/92_eei_decisions.md; log entries 5, 6, 7), the empty stack (log entry 22), no draw (log entry 3). The last
two clauses are the default parameters of spec/00_scope.md R8, the spec's decisions D9 and D10 (UNVERIFIED, log entry 4), in a
field whose place in State is the model's own choice (log entry 4). -/
def Obligations.ResetState : Prop :=
  State.reset.pc.toNat = 0x200 ∧ State.reset.halt = none ∧ State.reset.i = 0 ∧ State.reset.sp.val = 0 ∧
  State.reset.dt = 0 ∧ State.reset.st = 0 ∧ State.reset.draws = 0 ∧
  (∀ r : Reg, State.reset.getV r = 0) ∧ (∀ j : Fin 16, State.reset.stack[j] = 0) ∧
  (∀ k : Fin 16, State.reset.keyPressed k = false) ∧
  (∀ r c, cellOn State.reset.fb r c = false) ∧
  (∀ a : Nat, State.reset.mem.read a = if a < 80 then defaultFont.getD a 0 else 0) ∧
  State.reset.params.shiftSource = .y ∧ State.reset.params.decode8xy8 = .shl

/-- Construction from an image (spec/70_reset_and_hazards.md R280, R281): the image at 0x200, the font at 0, the other bytes
MEM_FILL (a parameter; the spec's decision D12, log entries 6 and 26), the rest as at reset; an image over 3584 bytes gives no state. -/
def Obligations.ConstructLoadsFontAndImage : Prop :=
  ∀ (p : Params) (fill : Byte) (font : Vector Byte 80) (image : List Byte),
    (3584 < image.length → State.construct p fill font image = none) ∧
    (image.length ≤ 3584 → ∃ s, State.construct p fill font image = some s ∧
      (∀ k (h : k < image.length), s.mem.read (0x200 + k) = image[k]) ∧
      (∀ a (h : a < 80), s.mem.read a = font[a]) ∧
      (∀ a, 80 ≤ a → a < 0x200 ∨ 0x200 + image.length ≤ a → a < 0x1000 → s.mem.read a = fill) ∧
      s.pc.toNat = 0x200 ∧ s.params = p ∧
      s.v = State.reset.v ∧ s.i = State.reset.i ∧ s.sp = State.reset.sp ∧ s.stack = State.reset.stack ∧
      s.dt = State.reset.dt ∧ s.st = State.reset.st ∧ s.key = State.reset.key ∧ s.fb = State.reset.fb ∧ s.halt = none)

/-- Every constructed state, reset among them, meets the invariant: canonical memory, PC at most 0x10FE, return addresses in
their range. -/
def Obligations.ConstructedStateMeetsInvariant : Prop :=
  State.reset.Inv ∧
  ∀ (p : Params) (fill : Byte) (font : Vector Byte 80) (image : List Byte) (s : State),
    State.construct p fill font image = some s → s.Inv

/-! ### Encoding -/

/-- Words written out from spec/30_encoding.md R85, one or more for each family (strict decode is the spec's decision D11,
8xy8 its decision D10, log entry 17; the direction of 8xy0 its decision D27, log entry 18). -/
def Obligations.SpecWordsDecode : Prop :=
  decodeWord .shl 0x00E0 = .ok .cls ∧ decodeWord .shl 0x00EE = .ok .ret ∧ decodeWord .shl 0x1234 = .ok (.jp 0x234) ∧
  decodeWord .shl 0x2ABC = .ok (.call 0xABC) ∧ decodeWord .shl 0x3342 = .ok (.seImm 3 0x42) ∧
  decodeWord .shl 0x4342 = .ok (.sneImm 3 0x42) ∧ decodeWord .shl 0x5120 = .ok (.seReg 1 2) ∧
  decodeWord .shl 0x6A9D = .ok (.ldImm 0xA 0x9D) ∧ decodeWord .shl 0x7002 = .ok (.addImm 0 2) ∧
  decodeWord .shl 0x8BA0 = .ok (.ldReg 0xB 0xA) ∧ decodeWord .shl 0x8127 = .ok (.subn 1 2) ∧
  decodeWord .shl 0x8418 = .ok (.shl8 4 1) ∧ decodeWord .unknown 0x8418 = .error (.unknownOpcode 0x8418) ∧
  decodeWord .shl 0x841E = .ok (.shl 4 1) ∧ decodeWord .shl 0x9120 = .ok (.sneReg 1 2) ∧
  decodeWord .shl 0xA300 = .ok (.ldI 0x300) ∧ decodeWord .shl 0xB500 = .ok (.jpV0 0x500) ∧
  decodeWord .shl 0xC50F = .ok (.rnd 5 0x0F) ∧ decodeWord .shl 0xD123 = .ok (.drw 1 2 3) ∧
  decodeWord .shl 0xE29E = .ok (.skp 2) ∧ decodeWord .shl 0xE2A1 = .ok (.sknp 2) ∧
  decodeWord .shl 0xF40A = .ok (.ldVxK 4) ∧ decodeWord .shl 0xF255 = .ok (.storeRegs 2) ∧
  decodeWord .shl 0x0123 = .error (.unknownOpcode 0x0123) ∧ decodeWord .shl 0x5121 = .error (.unknownOpcode 0x5121)

/-- Decode and encode agree on every instruction: the two bytes of a well-formed instruction, in big-endian order and with
any bytes after them, decode to that instruction and leave those bytes (spec/20_memory.md R62, spec/30_encoding.md R85). -/
def Obligations.DecodeOfEncodedBytes : Prop :=
  ∀ (d : Decode8xy8) (i : Instr) (rest : List Byte), i.wellFormed d = true →
    decodeBytes d (encodeBytes i ++ rest) = .ok (i, rest)

/-- Every word that decodes is the encoding of what it decodes to, so no bit of a word is dropped. -/
def Obligations.EncodeOfDecodedWord : Prop :=
  ∀ (d : Decode8xy8) (w : Word) (i : Instr), decodeWord d w = .ok i → encode i = w ∧ i.wellFormed d = true

/-- A word decodes exactly when it matches a row of spec/30_encoding.md R85 (strict decode, R86, the spec's decision D11,
log entry 17); any other is rejected as the unknown opcode it is. -/
def Obligations.DecodesExactlyTheTableRows : Prop :=
  ∀ (d : Decode8xy8) (w : Word),
    ((∃ i, decodeWord d w = .ok i) ↔ ∃ r ∈ opcodeRows d, r.selects w = true) ∧
    ((∀ i, decodeWord d w ≠ .ok i) → decodeWord d w = .error (.unknownOpcode w))

/-- No word matches two rows of spec/30_encoding.md R85, so the order of the rows does not matter. -/
def Obligations.OpcodeRowsNeverOverlap : Prop :=
  ∀ (d : Decode8xy8) (w : Word), ((opcodeRows d).filter (fun r => r.selects w)).length ≤ 1

/-! ### The step and its faults -/

/-- A step runs the decoded instruction: when the bytes at PC and PC + 1 decode to `i`, the step is `exec i`; nothing stands
around it (spec/30_encoding.md R93). -/
def Obligations.StepRunsDecodedInstruction : Prop :=
  ∀ (s : State) (i : Instr), s.halt = none → s.pc.toNat ≤ 0xFFE →
    decodeBytes s.params.decode8xy8 [s.mem.read s.pc.toNat, s.mem.read (s.pc.toNat + 1)] = .ok (i, []) →
    step s = exec i s

/-- A fetch at PC above 0xFFE raises FETCH_RANGE with the address and no word, and changes nothing else
(spec/30_encoding.md R80; the spec's decision D3, log entry 10). -/
def Obligations.FetchOutOfRangeFaults : Prop :=
  ∀ s : State, s.halt = none → 0xFFE < s.pc.toNat →
    ∃ r : FaultRecord, step s = .next { s with halt := some r } ∧ r.code = 2 ∧ r.addr = s.pc ∧ r.word = none ∧
      r.nibbles = none ∧ r.extra = none

/-- A word that matches no row of spec/30_encoding.md R85 raises UNKNOWN_OPCODE, recording the address, the word and its
nibble tuple; nothing else changes (R87; the code and the halted state are the spec's decision D15, log entry 2). -/
def Obligations.UnknownOpcodeFaults : Prop :=
  ∀ (s : State) (hi lo : Byte), s.halt = none → s.pc.toNat ≤ 0xFFE →
    s.mem.read s.pc.toNat = hi → s.mem.read (s.pc.toNat + 1) = lo →
    (∀ r ∈ opcodeRows s.params.decode8xy8, r.selects (hi ++ lo) = false) →
    ∃ r : FaultRecord, step s = .next { s with halt := some r } ∧ r.code = 1 ∧ r.addr = s.pc ∧ r.word = some (hi ++ lo) ∧
      ∃ q : Nibbles, r.nibbles = some q ∧ q.f.val = hi.toNat / 16 ∧ q.x.val = hi.toNat % 16 ∧
        q.y.val = lo.toNat / 16 ∧ q.n.val = lo.toNat % 16

/-- While HALT is not none a step changes nothing, and the host's timer ticks still act (spec/60_exceptions.md R254; the
spec's decision D15, log entry 2). -/
def Obligations.HaltedCoreIsStuck : Prop :=
  ∀ (s : State) (r : FaultRecord), s.halt = some r →
    s.move .execute = .next s ∧
    ∃ t, s.move .tickDelay = .next t ∧ t.dt.toNat = s.dt.toNat - 1 ∧ t.halt = some r

/-- Every step of every state answers a next state: the core never stops by itself, and a fault is the state with HALT
written (spec/60_exceptions.md R253, R265; log entry 2 is the model's reading). -/
def Obligations.StepAlwaysAnswers : Prop := ∀ s : State, ∃ t, step s = .next t

/-- A step that raises a fault leaves every piece of state as it was, but HALT; the record holds the instruction's address
and, but for FETCH_RANGE, its word (spec/60_exceptions.md R252, R253; the spec's decision D15, log entry 2). -/
def Obligations.FaultCommitsNothing : Prop :=
  ∀ (s t : State) (r : FaultRecord), s.halt = none → step s = .next t → t.halt = some r →
    t = { s with halt := some r } ∧ r.addr = s.pc ∧
    (r.fault = .fetchRange → r.word = none) ∧
    (r.fault ≠ .fetchRange → r.word = some (s.mem.read s.pc.toNat ++ s.mem.read (s.pc.toNat + 1)))

/-- The faults an executed instruction may raise (spec/60_exceptions.md R250, R255). -/
def mayRaise (i : Instr) (f : Fault) : Prop :=
  match f with
  | .unknownOpcode => False
  | .fetchRange => False
  | .memRange _ => (∃ x y n, i = .drw x y n) ∨ (∃ x, i = .ldB x) ∨ (∃ x, i = .storeRegs x) ∨ (∃ x, i = .loadRegs x)
  | .stackOverflow => ∃ nnn, i = .call nnn
  | .stackUnderflow => i = .ret
  | .keyRange _ => (∃ x, i = .skp x) ∨ (∃ x, i = .sknp x)

/-- Each fault comes only from the instructions the spec lists for it (spec/60_exceptions.md R250, R255; the classes are the
spec's decisions D8 and D15, log entries 2 and 14). -/
def Obligations.FaultsComeFromTheirInstructions : Prop :=
  ∀ (i : Instr) (s t : State) (r : FaultRecord), s.halt = none → exec i s = .next t → t.halt = some r → mayRaise i r.fault

/-- The instructions that can never fault once decoded (spec/60_exceptions.md R251, which the spec marks derived) answer a
next state with HALT as it was, at every state. -/
def Obligations.NeverFaultingInstructionsComplete : Prop :=
  ∀ (i : Instr) (s : State), (∀ f : Fault, ¬ mayRaise i f) → ∃ t, exec i s = .next t ∧ t.halt = s.halt

/-- The data addresses an instruction accesses (spec/20_memory.md R61). -/
def accesses (i : Instr) (s : State) (a : Nat) : Prop :=
  match i with
  | .drw _ _ n => ∃ k : Nat, k < n.val ∧ a = s.base + k
  | .ldB _ => ∃ k : Nat, k < 3 ∧ a = s.base + k
  | .storeRegs x => ∃ k : Nat, k ≤ x.val ∧ a = s.base + k
  | .loadRegs x => ∃ k : Nat, k ≤ x.val ∧ a = s.base + k
  | _ => False

/-- An instruction raises MEM_RANGE exactly when an address it accesses lies above 0xFFF, and the record holds the lowest
such address (spec/20_memory.md R63, R64; the spec's decisions D2, D26, D28, log entry 9). -/
def Obligations.MemRangeRecordsLowestAddress : Prop :=
  ∀ (i : Instr) (s t : State), s.halt = none → exec i s = .next t →
    ((∃ a, accesses i s a ∧ 0xFFF < a) ↔ ∃ a r, t.halt = some r ∧ r.fault = .memRange a) ∧
    (∀ a r, t.halt = some r → r.fault = .memRange a →
      accesses i s a ∧ 0xFFF < a ∧ ∀ b, accesses i s b → 0xFFF < b → a ≤ b)

/-! ### Which instruction writes which state -/

/-- Every piece of state is written only by the instructions the spec lists for it: keys and parameters by none, DT by Fx15,
ST by Fx18, the stack by 2nnn and 00EE, the framebuffer by 00E0 and Dxyn, memory by Fx33 and Fx55, I by Annn, Fx1E, Fx29,
Fx55 and Fx65, and a random byte is drawn by Cxkk only (spec/10_state.md R35, R42 to R45, R48, spec/20_memory.md R61). -/
def Obligations.StateWrittenOnlyByItsInstructions : Prop :=
  ∀ (i : Instr) (s t : State), exec i s = .next t →
    t.key = s.key ∧ t.params = s.params ∧
    ((∀ x, i ≠ .ldDtVx x) → t.dt = s.dt) ∧
    ((∀ x, i ≠ .ldStVx x) → t.st = s.st) ∧
    ((∀ nnn, i ≠ .call nnn) → i ≠ .ret → SameStack s t) ∧
    (i ≠ .cls → (∀ x y n, i ≠ .drw x y n) → t.fb = s.fb) ∧
    ((∀ x, i ≠ .ldB x) → (∀ x, i ≠ .storeRegs x) → SameMemory s t) ∧
    ((∀ nnn, i ≠ .ldI nnn) → (∀ x, i ≠ .addI x) → (∀ x, i ≠ .ldF x) → (∀ x, i ≠ .storeRegs x) →
      (∀ x, i ≠ .loadRegs x) → t.i = s.i) ∧
    ((∀ x kk, i ≠ .rnd x kk) → t.draws = s.draws)

/-- The instructions that write VF as a flag (spec/10_state.md R32). -/
def writesFlag (i : Instr) : Bool :=
  match i with
  | .addReg _ _ => true
  | .subReg _ _ => true
  | .shr _ _ => true
  | .subn _ _ => true
  | .shl8 _ _ => true
  | .shl _ _ => true
  | .drw _ _ _ => true
  | .addI _ => true
  | _ => false

/-- The register an instruction writes as its destination field x; Fx65 writes V0 to V[x] (spec/10_state.md R33). -/
def writesReg (i : Instr) (r : Reg) : Prop :=
  match i with
  | .ldImm x _ => r = x
  | .addImm x _ => r = x
  | .ldReg x _ => r = x
  | .orReg x _ => r = x
  | .andReg x _ => r = x
  | .xorReg x _ => r = x
  | .addReg x _ => r = x
  | .subReg x _ => r = x
  | .shr x _ => r = x
  | .subn x _ => r = x
  | .shl8 x _ => r = x
  | .shl x _ => r = x
  | .rnd x _ => r = x
  | .ldVxDt x => r = x
  | .ldVxK x => r = x
  | .loadRegs x => r.val ≤ x.val
  | _ => False

/-- No instruction writes a general register but its destination and, where it writes a flag, VF; and a flag is always 0 or
1 (spec/10_state.md R32, R33; the order of result and flag is the spec's decision D4, log entry 11). -/
def Obligations.RegistersWrittenOnlyAsListed : Prop :=
  ∀ (i : Instr) (s t : State), exec i s = .next t →
    (∀ r : Reg, ¬ writesReg i r → ¬ (writesFlag i = true ∧ r = regF) → t.getV r = s.getV r) ∧
    (s.halt = none → t.halt = none → writesFlag i = true → t.getV regF = 0 ∨ t.getV regF = 1)

/-- What each instruction leaves in PC (spec/10_state.md R38). -/
def pcAfter (i : Instr) (s t : State) : Prop :=
  match i with
  | .jp nnn => t.pc.toNat = nnn.toNat
  | .call nnn => t.pc.toNat = nnn.toNat
  | .jpV0 nnn => t.pc.toNat = nnn.toNat + (s.getV 0).toNat
  | .ret => ∃ j : Fin 16, s.sp.val = j.val + 1 ∧ t.pc = s.stack[j]
  | .seImm x kk => t.pc = if s.getV x = kk then s.pc + 4 else s.pc + 2
  | .sneImm x kk => t.pc = if s.getV x = kk then s.pc + 2 else s.pc + 4
  | .seReg x y => t.pc = if s.getV x = s.getV y then s.pc + 4 else s.pc + 2
  | .sneReg x y => t.pc = if s.getV x = s.getV y then s.pc + 2 else s.pc + 4
  | .skp x => ∃ k : Fin 16, (s.getV x).toNat = k.val ∧ t.pc = if s.keyPressed k = true then s.pc + 4 else s.pc + 2
  | .sknp x => ∃ k : Fin 16, (s.getV x).toNat = k.val ∧ t.pc = if s.keyPressed k = true then s.pc + 2 else s.pc + 4
  | .ldVxK _ =>
    ((∀ k : Fin 16, s.keyPressed k = false) → t.pc = s.pc) ∧ ((∃ k : Fin 16, s.keyPressed k = true) → t.pc = s.pc + 2)
  | _ => t.pc = s.pc + 2

/-- Each instruction that completes leaves PC as spec/10_state.md R38 says (the unmasked sum of Bnnn is the spec's decision
D16, log entry 10; the level-sensitive Fx0A its decision D19, log entry 16). -/
def Obligations.PcAfterEachInstruction : Prop :=
  ∀ (i : Instr) (s t : State), s.halt = none → exec i s = .next t → t.halt = none → pcAfter i s t

/-- No instruction reads ST: what a step does to everything else is the same whatever ST holds (spec/10_state.md R43). It
compares two runs, and for Cxkk both draw the byte `Config.randByte` at the same `draws`: that the byte is the same is the
model's choice (log entry 3, unsafe for two runs of the hardware), so for Cxkk it says that ST does not matter once the two
runs draw the same byte. -/
def Obligations.NoInstructionReadsSoundTimer : Prop :=
  ∀ (i : Instr) (s t : State) (b : Byte), exec i s = .next t →
    ∃ u, exec i { s with st := b } = .next u ∧ { u with st := 0 } = { t with st := 0 }

/-! ### Invariants -/

/-- Every step keeps the invariant: memory stays canonical, PC stays at most 0x10FE (spec/10_state.md R39), every occupied
stack slot holds a return address in 0x002-0x1000 (spec/40_control.md R102). -/
def Obligations.StepKeepsInvariant : Prop :=
  ∀ s t : State, s.Inv → step s = .next t → t.Inv

/-- Every schedule of steps and host operations keeps the invariant (spec/70_reset_and_hazards.md R291, R298). -/
def Obligations.AnyScheduleKeepsInvariant : Prop :=
  ∀ (ms : List Move) (s t : State), s.Inv → State.moves ms s = .next t → t.Inv

/-- The parameters are fixed for the life of a Machine State, and a halted core stays halted with the same record, under
every schedule (spec/10_state.md R46, R48; log entries 2 and 4). -/
def Obligations.AnyScheduleKeepsParametersAndHalt : Prop :=
  ∀ (ms : List Move) (s t : State), State.moves ms s = .next t →
    t.params = s.params ∧ ∀ r, s.halt = some r → t.halt = some r

/-- A host operation writes the timers and the keys and nothing else (spec/70_reset_and_hazards.md R294 to R298). -/
def Obligations.HostMovesWriteOnlyTimersAndKeys : Prop :=
  ∀ (m : Move) (s t : State), m ≠ .execute → s.move m = .next t →
    t = { s with dt := t.dt, st := t.st, key := t.key } ∧
    (m ≠ .tickDelay → t.dt = s.dt) ∧ (m ≠ .tickSound → m ≠ .soundTick → t.st = s.st) ∧
    ((∀ k b, m ≠ .setKey k b) → t.key = s.key)

/-! ### Control transfer -/

/-- JP nnn: PC is the 12-bit immediate, nothing else changes (spec/40_control.md R103). -/
def Obligations.JumpSetsPc : Prop :=
  ∀ (nnn : Addr12) (s : State), ∃ t, exec (.jp nnn) s = .next t ∧ t.pc.toNat = nnn.toNat ∧ RegisterFrame noReg s t

/-- JP V0, nnn: PC is the unmasked sum of the immediate and V0 (spec/40_control.md R109; the spec's decision D16, log
entry 10). -/
def Obligations.JumpWithOffsetAddsV0 : Prop :=
  ∀ (nnn : Addr12) (s : State), ∃ t, exec (.jpV0 nnn) s = .next t ∧ t.pc.toNat = nnn.toNat + (s.getV 0).toNat ∧
    RegisterFrame noReg s t

/-- CALL nnn: with SP = 16 it raises STACK_OVERFLOW and commits nothing; otherwise it pushes A + 2 and jumps
(spec/40_control.md R104; the fault's code and the halted state are the spec's decision D15, log entry 2; SP counts occupied
slots by its decision D14, log entry 22). -/
def Obligations.CallPushesReturnAddress : Prop :=
  ∀ (nnn : Addr12) (s : State),
    (s.sp.val = 16 → ∃ r : FaultRecord, exec (.call nnn) s = .next { s with halt := some r } ∧ r.code = 4 ∧
      r.addr = s.pc ∧ r.word = some (encode (.call nnn)) ∧ r.extra = none) ∧
    (∀ j : Fin 16, s.sp.val = j.val → ∃ t, exec (.call nnn) s = .next t ∧ t.pc.toNat = nnn.toNat ∧
      t.sp.val = j.val + 1 ∧ t.stack[j] = s.pc + 2 ∧ (∀ k : Fin 16, k ≠ j → t.stack[k] = s.stack[k]) ∧
      t.i = s.i ∧ SameRegsBut noReg s t ∧ SameMemory s t ∧ SameTimers s t ∧ t.fb = s.fb ∧ SameOutside s t)

/-- RET: with SP = 0 it raises STACK_UNDERFLOW and commits nothing; otherwise it pops PC, and the slot keeps its value
(spec/40_control.md R102, spec/10_state.md R41; decisions D14, D15, log entries 2 and 22). -/
def Obligations.ReturnPopsPc : Prop :=
  ∀ s : State,
    (s.sp.val = 0 → ∃ r : FaultRecord, exec .ret s = .next { s with halt := some r } ∧ r.code = 5 ∧
      r.addr = s.pc ∧ r.word = some (encode .ret) ∧ r.extra = none) ∧
    (∀ j : Fin 16, s.sp.val = j.val + 1 → ∃ t, exec .ret s = .next t ∧ t.pc = s.stack[j] ∧ t.sp.val = j.val ∧
      t.stack = s.stack ∧ t.i = s.i ∧ SameRegsBut noReg s t ∧ SameMemory s t ∧ SameTimers s t ∧ t.fb = s.fb ∧
      SameOutside s t)

/-- A return after a call, wherever the subroutine ends, resumes at A + 2 with the stack pointer of before the call, and the
return addresses below it untouched: last in, first out (spec/10_state.md R40, R42; the spec's decision D14, log entry 22). -/
def Obligations.ReturnAfterCallResumes : Prop :=
  ∀ (nnn : Addr12) (s t : State) (p : Word), s.sp.val < 16 → exec (.call nnn) s = .next t →
    ∃ u, exec .ret { t with pc := p } = .next u ∧ u.pc = s.pc + 2 ∧ u.sp = s.sp ∧
      (∀ j : Fin 16, j.val < s.sp.val → u.stack[j] = s.stack[j]) ∧ RegisterFrame noReg s { u with stack := s.stack }

/-- SE Vx, kk and SNE Vx, kk (spec/40_control.md R101, R105, R106). -/
def Obligations.SkipOnByte : Prop :=
  ∀ (x : Reg) (kk : Byte) (s : State),
    (∃ t, exec (.seImm x kk) s = .next t ∧ t.pc = (if s.getV x = kk then s.pc + 4 else s.pc + 2) ∧
      RegisterFrame noReg s t) ∧
    (∃ t, exec (.sneImm x kk) s = .next t ∧ t.pc = (if s.getV x = kk then s.pc + 2 else s.pc + 4) ∧
      RegisterFrame noReg s t)

/-- SE Vx, Vy and SNE Vx, Vy (spec/40_control.md R101, R107, R108). -/
def Obligations.SkipOnRegisters : Prop :=
  ∀ (x y : Reg) (s : State),
    (∃ t, exec (.seReg x y) s = .next t ∧ t.pc = (if s.getV x = s.getV y then s.pc + 4 else s.pc + 2) ∧
      RegisterFrame noReg s t) ∧
    (∃ t, exec (.sneReg x y) s = .next t ∧ t.pc = (if s.getV x = s.getV y then s.pc + 2 else s.pc + 4) ∧
      RegisterFrame noReg s t)

/-! ### Register arithmetic and logic -/

/-- LD Vx, kk and ADD Vx, kk: the byte, the sum modulo 256, no flag (spec/41_alu.md R132, R133). -/
def Obligations.LoadAndAddImmediate : Prop :=
  ∀ (x : Reg) (kk : Byte) (s : State),
    (∃ t, exec (.ldImm x kk) s = .next t ∧ t.getV x = kk ∧ t.pc = s.pc + 2 ∧ RegisterFrame (· = x) s t) ∧
    (∃ t, exec (.addImm x kk) s = .next t ∧ (t.getV x).toNat = ((s.getV x).toNat + kk.toNat) % 256 ∧
      t.pc = s.pc + 2 ∧ RegisterFrame (· = x) s t)

/-- LD Vx, Vy copies V[y] into V[x], no flag (spec/41_alu.md R134; the direction is the spec's decision D27, log
entry 18). -/
def Obligations.CopyRegister : Prop :=
  ∀ (x y : Reg) (s : State),
    ∃ t, exec (.ldReg x y) s = .next t ∧ t.getV x = s.getV y ∧ t.pc = s.pc + 2 ∧ RegisterFrame (· = x) s t

/-- OR, AND, XOR Vx, Vy, bit by bit, no flag (spec/41_alu.md R135, R136, R137; that the destination is V[x] is the spec's
decision D27, log entry 18). -/
def Obligations.LogicBitByBit : Prop :=
  ∀ (x y : Reg) (s : State),
    (∃ t, exec (.orReg x y) s = .next t ∧ t.pc = s.pc + 2 ∧ RegisterFrame (· = x) s t ∧
      ∀ b : Nat, (t.getV x).getLsbD b = ((s.getV x).getLsbD b || (s.getV y).getLsbD b)) ∧
    (∃ t, exec (.andReg x y) s = .next t ∧ t.pc = s.pc + 2 ∧ RegisterFrame (· = x) s t ∧
      ∀ b : Nat, (t.getV x).getLsbD b = ((s.getV x).getLsbD b && (s.getV y).getLsbD b)) ∧
    (∃ t, exec (.xorReg x y) s = .next t ∧ t.pc = s.pc + 2 ∧ RegisterFrame (· = x) s t ∧
      ∀ b : Nat, (t.getV x).getLsbD b = ((s.getV x).getLsbD b ^^ (s.getV y).getLsbD b))

/-- The frame and result of an instruction that writes `result` (a number below 256) to V[x] and then `flag` to VF: with
x = 0xF the flag stays (spec/41_alu.md R131). -/
def ResultAndFlag (x : Reg) (result : Nat) (flag : Nat) (s t : State) : Prop :=
  (x ≠ regF → (t.getV x).toNat = result) ∧ (t.getV regF).toNat = flag ∧ t.pc = s.pc + 2 ∧
    RegisterFrame (fun r => r = x ∨ r = regF) s t

/-- ADD Vx, Vy: the sum modulo 256, VF 1 exactly when the sum of the two original values exceeds 255; with x = 0xF VF holds
the carry only (spec/41_alu.md R138; the order of result and flag is the spec's decision D4, log entry 11). -/
def Obligations.AddRegistersWithCarry : Prop :=
  ∀ (x y : Reg) (s : State), ∃ t, exec (.addReg x y) s = .next t ∧
    ResultAndFlag x (((s.getV x).toNat + (s.getV y).toNat) % 256)
      (if (s.getV x).toNat + (s.getV y).toNat > 255 then 1 else 0) s t

/-- SUB Vx, Vy and SUBN Vx, Vy: the difference modulo 256, VF 1 exactly when there is no borrow (spec/41_alu.md R139,
R141; the order of result and flag is the spec's decision D4, log entry 11). -/
def Obligations.SubtractRegistersWithNotBorrow : Prop :=
  ∀ (x y : Reg) (s : State),
    (∃ t, exec (.subReg x y) s = .next t ∧
      ResultAndFlag x (((s.getV x).toNat + 256 - (s.getV y).toNat) % 256)
        (if (s.getV x).toNat ≥ (s.getV y).toNat then 1 else 0) s t) ∧
    (∃ t, exec (.subn x y) s = .next t ∧
      ResultAndFlag x (((s.getV y).toNat + 256 - (s.getV x).toNat) % 256)
        (if (s.getV y).toNat ≥ (s.getV x).toNat then 1 else 0) s t)

/-- The register SHIFT_SOURCE selects: y, or x (spec/00_scope.md R8). -/
def shiftSourceReg (s : State) (x y : Reg) : Reg := if s.params.shiftSource = .y then y else x

/-- SHR Vx, Vy: half the source, VF its bit 0, under either setting of SHIFT_SOURCE (spec/41_alu.md R140; the spec's
decision D9, log entry 4). -/
def Obligations.ShiftRightBothSources : Prop :=
  ∀ (x y : Reg) (s : State), ∃ t, exec (.shr x y) s = .next t ∧
    ResultAndFlag x ((s.getV (shiftSourceReg s x y)).toNat / 2) ((s.getV (shiftSourceReg s x y)).toNat % 2) s t

/-- SHL Vx, Vy by both its encodings: twice the source modulo 256, VF its bit 7, under either setting of SHIFT_SOURCE
(spec/41_alu.md R142, R143; the spec's decisions D9, D10, log entries 4 and 17). -/
def Obligations.ShiftLeftBothEncodings : Prop :=
  ∀ (x y : Reg) (s : State),
    (∃ t, exec (.shl x y) s = .next t ∧
      ResultAndFlag x (2 * (s.getV (shiftSourceReg s x y)).toNat % 256)
        ((s.getV (shiftSourceReg s x y)).toNat / 128) s t) ∧
    (∃ t, exec (.shl8 x y) s = .next t ∧
      ResultAndFlag x (2 * (s.getV (shiftSourceReg s x y)).toNat % 256)
        ((s.getV (shiftSourceReg s x y)).toNat / 128) s t)

/-- RND Vx, kk: the drawn byte, whatever it is, ANDed with kk; exactly one byte is drawn (spec/41_alu.md R144; the spec's
decision D18). The byte is the free value of log entry 3, so this holds of every byte. -/
def Obligations.RandomAndImmediate : Prop :=
  ∀ (x : Reg) (kk : Byte) (s : State), ∃ t, exec (.rnd x kk) s = .next t ∧
    (∀ b : Nat, (t.getV x).getLsbD b = ((Config.randByte s.draws).getLsbD b && kk.getLsbD b)) ∧
    t.draws = s.draws + 1 ∧ t.pc = s.pc + 2 ∧ RegisterFrame (· = x) s { t with draws := s.draws }

/-! ### Index register and memory -/

/-- LD I, nnn (spec/42_index_memory.md R171). -/
def Obligations.LoadIndex : Prop :=
  ∀ (nnn : Addr12) (s : State), ∃ t, exec (.ldI nnn) s = .next t ∧ t.i.toNat = nnn.toNat ∧ t.pc = s.pc + 2 ∧
    IndexFrame noReg s t

/-- LD F, Vx: five times the whole byte (spec/42_index_memory.md R173; the spec's decision D17, log entry 15). -/
def Obligations.FontAddressIsFiveTimesByte : Prop :=
  ∀ (x : Reg) (s : State), ∃ t, exec (.ldF x) s = .next t ∧ t.i.toNat = 5 * (s.getV x).toNat ∧ t.pc = s.pc + 2 ∧
    IndexFrame noReg s t

/-- ADD I, Vx: the sum modulo 65536, VF the carry out of bit 15, the flag written last (spec/42_index_memory.md R172; the
spec's decision D4, log entry 11). -/
def Obligations.AddToIndexWithCarry : Prop :=
  ∀ (x : Reg) (s : State), ∃ t, exec (.addI x) s = .next t ∧
    t.i.toNat = (s.i.toNat + (s.getV x).toNat) % 65536 ∧
    (t.getV regF).toNat = (if s.i.toNat + (s.getV x).toNat > 0xFFFF then 1 else 0) ∧
    t.pc = s.pc + 2 ∧ IndexFrame (· = regF) s t

/-- The fault of an instruction whose accesses start at I and pass 0xFFF: MEM_RANGE with the first address above it, and
nothing else changed (the spec's decisions D2, D15, D26, log entries 2 and 9). -/
def RaisesMemRange (i : Instr) (s : State) : Prop :=
  ∃ r : FaultRecord, exec i s = .next { s with halt := some r } ∧ r.code = 3 ∧ r.addr = s.pc ∧
    r.word = some (encode i) ∧ r.extra = some (if 0xFFF < s.base then s.base else 0x1000)

/-- LD B, Vx: the three digits at I, I + 1, I + 2, every other byte and all else as before; MEM_RANGE with nothing written
when I + 2 > 0xFFF (spec/42_index_memory.md R174; the fault by the spec's decisions D2, D15, D26, log entries 2 and 9). -/
def Obligations.BcdStoresThreeDigits : Prop :=
  ∀ (x : Reg) (s : State),
    (s.base + 2 > 0xFFF → RaisesMemRange (.ldB x) s) ∧
    (s.mem.wf = true → s.base + 2 ≤ 0xFFF → ∃ t, exec (.ldB x) s = .next t ∧
      (t.mem.read s.base).toNat = (s.getV x).toNat / 100 ∧
      (t.mem.read (s.base + 1)).toNat = (s.getV x).toNat / 10 % 10 ∧
      (t.mem.read (s.base + 2)).toNat = (s.getV x).toNat % 10 ∧
      (∀ a, a < s.base ∨ s.base + 3 ≤ a → t.mem.read a = s.mem.read a) ∧
      t.i = s.i ∧ t.pc = s.pc + 2 ∧ SameRegsBut noReg s t ∧ SameStack s t ∧ SameTimers s t ∧ t.fb = s.fb ∧
      SameOutside s t)

/-- LD [I], Vx: V0 to V[x] at I on, every other byte as before, I advanced by x + 1; MEM_RANGE with nothing written when
I + x > 0xFFF (spec/42_index_memory.md R175; the fault by the spec's decisions D2, D15, D26, log entries 2 and 9). -/
def Obligations.BlockStoreWritesAndAdvances : Prop :=
  ∀ (x : Reg) (s : State),
    (s.base + x.val > 0xFFF → RaisesMemRange (.storeRegs x) s) ∧
    (s.mem.wf = true → s.base + x.val ≤ 0xFFF → ∃ t, exec (.storeRegs x) s = .next t ∧
      (∀ j : Reg, j.val ≤ x.val → t.mem.read (s.base + j.val) = s.getV j) ∧
      (∀ a, a < s.base ∨ s.base + x.val < a → t.mem.read a = s.mem.read a) ∧
      t.i.toNat = s.i.toNat + x.val + 1 ∧ t.pc = s.pc + 2 ∧ SameRegsBut noReg s t ∧ SameStack s t ∧ SameTimers s t ∧
      t.fb = s.fb ∧ SameOutside s t)

/-- LD Vx, [I]: V0 to V[x] from the bytes at I on, the other registers and all of memory as before, I advanced by x + 1;
MEM_RANGE with no register written when I + x > 0xFFF (spec/42_index_memory.md R176; the fault by the spec's decisions
D2, D15, D26, log entries 2 and 9). -/
def Obligations.BlockLoadReadsAndAdvances : Prop :=
  ∀ (x : Reg) (s : State),
    (s.base + x.val > 0xFFF → RaisesMemRange (.loadRegs x) s) ∧
    (s.base + x.val ≤ 0xFFF → ∃ t, exec (.loadRegs x) s = .next t ∧
      (∀ j : Reg, j.val ≤ x.val → t.getV j = s.mem.read (s.base + j.val)) ∧
      t.i.toNat = s.i.toNat + x.val + 1 ∧ t.pc = s.pc + 2 ∧ IndexFrame (fun r => r.val ≤ x.val) s t)

/-- What Fx55 stored, Fx65 with the same x and the same I loads back, whatever the registers hold in between
(spec/42_index_memory.md R175, R176). -/
def Obligations.BlockLoadAfterStoreRestores : Prop :=
  ∀ (x : Reg) (s t u : State), s.mem.wf = true → s.base + x.val ≤ 0xFFF → exec (.storeRegs x) s = .next t →
    u.mem = t.mem → u.i = s.i → ∃ q, exec (.loadRegs x) u = .next q ∧ (∀ j : Reg, j.val ≤ x.val → q.getV j = s.getV j) ∧
      q.i = t.i

/-- Self-modifying code: when Fx55 stores over the very next instruction, the next step executes the stored word
(spec/20_memory.md R72, spec/70_reset_and_hazards.md R288; the spec's decision D24, log entry 24). -/
def Obligations.StoredInstructionIsExecutedNext : Prop :=
  ∀ (x : Reg) (i : Instr) (s t : State), s.halt = none → s.mem.wf = true → 1 ≤ x.val → s.base + x.val ≤ 0xFFF →
    s.pc.toNat + 2 = s.base → s.getV 0 ++ s.getV 1 = encode i → i.wellFormed s.params.decode8xy8 = true →
    exec (.storeRegs x) s = .next t → step t = exec i t

/-! ### Framebuffer -/

/-- CLS: every cell off, nothing else changed, VF among it (spec/43_display.md R203). -/
def Obligations.ClearScreen : Prop :=
  ∀ s : State, ∃ t, exec .cls s = .next t ∧ (∀ r c, cellOn t.fb r c = false) ∧ t.pc = s.pc + 2 ∧
    RegisterFrame noReg s { t with fb := s.fb }

/-- Sprite pixel (row `k`, column `c`) of DRW has value 1: bit `7 - c` of the byte at I + k (spec/43_display.md R201). -/
def spriteBit (s : State) (k c : Nat) : Bool := (s.mem.read (s.base + k)).getLsbD (7 - c)

/-- Sprite pixel (row `k`, column `c`) drawn at V[x], V[y] lands in row `row` and column `col`, each axis wrapping on its
own (spec/43_display.md R200). -/
def landsOn (s : State) (x y : Reg) (k c : Nat) (row : Fin 32) (col : Fin 64) : Prop :=
  row.val = ((s.getV y).toNat + k) % 32 ∧ col.val = ((s.getV x).toNat + c) % 64

/-- A sprite pixel of value 1 lands on a cell that is on (spec/43_display.md R202). -/
def Collides (s : State) (x y : Reg) (n : Nibble) : Prop :=
  ∃ (k c : Nat) (row : Fin 32) (col : Fin 64), k < n.val ∧ c < 8 ∧ landsOn s x y k c row col ∧
    spriteBit s k c = true ∧ cellOn s.fb row col = true

/-- DRW Vx, Vy, n: each cell under a sprite pixel is XORed with it, every other cell is as before, VF is 1 exactly on a
collision, nothing else changes; operands are the values before the instruction (spec/43_display.md R200, R202, R204; the
spec's decisions D5, D6, D23, log entries 11, 12, 19). -/
def Obligations.DrawSpriteXorsCells : Prop :=
  ∀ (x y : Reg) (n : Nibble) (s : State), n.val = 0 ∨ s.base + n.val ≤ 0x1000 →
    ∃ t, exec (.drw x y n) s = .next t ∧
      (∀ (k c : Nat) (row : Fin 32) (col : Fin 64), k < n.val → c < 8 → landsOn s x y k c row col →
        cellOn t.fb row col = (cellOn s.fb row col ^^ spriteBit s k c)) ∧
      (∀ (row : Fin 32) (col : Fin 64), (∀ k c : Nat, k < n.val → c < 8 → ¬ landsOn s x y k c row col) →
        cellOn t.fb row col = cellOn s.fb row col) ∧
      (Collides s x y n → t.getV regF = 1) ∧ (¬ Collides s x y n → t.getV regF = 0) ∧
      t.pc = s.pc + 2 ∧ RegisterFrame (· = regF) s { t with fb := s.fb }

/-- DRW whose sprite passes 0xFFF raises MEM_RANGE and changes no cell and no register (spec/43_display.md R204,
spec/20_memory.md R64; the spec's decision D2, log entry 9). -/
def Obligations.DrawOutOfRangeFaults : Prop :=
  ∀ (x y : Reg) (n : Nibble) (s : State), 0 < n.val → s.base + n.val - 1 > 0xFFF → RaisesMemRange (.drw x y n) s

/-- Drawing the same sprite twice at the same origin restores the framebuffer, and the second draw collides exactly when
some sprite pixel of value 1 lands on a cell that was off before the first (spec/43_display.md R205, where the spec marks it
derived, spec/90_conflicts.md C7). -/
def Obligations.DrawingTwiceRestores : Prop :=
  ∀ (x y : Reg) (n : Nibble) (s t u : State), s.halt = none → exec (.drw x y n) s = .next t → t.halt = none →
    t.getV x = s.getV x → t.getV y = s.getV y → exec (.drw x y n) t = .next u →
    u.fb = s.fb ∧
    (u.getV regF = 1 ↔ ∃ (k c : Nat) (row : Fin 32) (col : Fin 64), k < n.val ∧ c < 8 ∧ landsOn s x y k c row col ∧
      spriteBit s k c = true ∧ cellOn s.fb row col = false)

/-! ### Keys and timers -/

/-- SKP Vx and SKNP Vx: skip by the state of key V[x]; with V[x] above 15 they raise KEY_RANGE and change nothing
(spec/44_timers_keys.md R220, R221; the spec's decision D8, log entry 14). -/
def Obligations.SkipOnKey : Prop :=
  ∀ (x : Reg) (s : State),
    (∀ k : Fin 16, (s.getV x).toNat = k.val →
      (∃ t, exec (.skp x) s = .next t ∧ t.pc = (if s.key[k] = true then s.pc + 4 else s.pc + 2) ∧
        RegisterFrame noReg s t) ∧
      (∃ t, exec (.sknp x) s = .next t ∧ t.pc = (if s.key[k] = true then s.pc + 2 else s.pc + 4) ∧
        RegisterFrame noReg s t)) ∧
    (15 < (s.getV x).toNat →
      (∃ r : FaultRecord, exec (.skp x) s = .next { s with halt := some r } ∧ r.code = 6 ∧ r.addr = s.pc ∧
        r.word = some (encode (.skp x)) ∧ r.extra = some (s.getV x).toNat) ∧
      (∃ r : FaultRecord, exec (.sknp x) s = .next { s with halt := some r } ∧ r.code = 6 ∧ r.addr = s.pc ∧
        r.word = some (encode (.sknp x)) ∧ r.extra = some (s.getV x).toNat))

/-- LD Vx, K with a key pressed stores the least pressed index and proceeds (spec/44_timers_keys.md R222; level-sensitive by
the spec's decision D19, log entry 16). -/
def Obligations.WaitForKeyTakesLeast : Prop :=
  ∀ (x : Reg) (s : State) (k : Fin 16), s.key[k] = true → (∀ j : Fin 16, j.val < k.val → s.key[j] = false) →
    ∃ t, exec (.ldVxK x) s = .next t ∧ (t.getV x).toNat = k.val ∧ t.pc = s.pc + 2 ∧ RegisterFrame (· = x) s t

/-- LD Vx, K with no key pressed stalls: any number of steps leaves every piece of state, PC included, unchanged
(spec/44_timers_keys.md R222, spec/10_state.md R47). -/
def Obligations.WaitForKeyStalls : Prop :=
  ∀ (s : State) (n : Nat), s.waitsForKey = true → State.moves (List.replicate n .execute) s = .next s

/-- LD Vx, DT; LD DT, Vx; LD ST, Vx (spec/44_timers_keys.md R223, R224, R225; which is which is the spec's decision D7 from
general knowledge, log entry 13). -/
def Obligations.TimerMoves : Prop :=
  ∀ (x : Reg) (s : State),
    (∃ t, exec (.ldVxDt x) s = .next t ∧ t.getV x = s.dt ∧ t.pc = s.pc + 2 ∧ RegisterFrame (· = x) s t) ∧
    (∃ t, exec (.ldDtVx x) s = .next t ∧ t.dt = s.getV x ∧ t.pc = s.pc + 2 ∧ RegisterFrame noReg s { t with dt := s.dt }) ∧
    (∃ t, exec (.ldStVx x) s = .next t ∧ t.st = s.getV x ∧ t.pc = s.pc + 2 ∧ RegisterFrame noReg s { t with st := s.st })

/-! ### The host -/

/-- The timer operations: each decrements its timer if nonzero and changes nothing else; sound_tick reports whether ST was
nonzero before (spec/70_reset_and_hazards.md R294, R295). -/
def Obligations.TicksDecrementWithClamp : Prop :=
  ∀ s : State,
    (s.tickDelay.dt.toNat = s.dt.toNat - 1 ∧ { s.tickDelay with dt := s.dt } = s) ∧
    (s.tickSound.st.toNat = s.st.toNat - 1 ∧ { s.tickSound with st := s.st } = s) ∧
    ((s.soundTick.1 = true ↔ 0 < s.st.toNat) ∧ s.soundTick.2.st.toNat = s.st.toNat - 1 ∧
      { s.soundTick.2 with st := s.st } = s)

/-- set_key: a key index in 0..15 sets that key and nothing else; any other index changes nothing
(spec/70_reset_and_hazards.md R296). -/
def Obligations.SetKeyIsBoundsChecked : Prop :=
  ∀ (s : State) (k : Nat) (pressed : Bool),
    (15 < k → s.setKey k pressed = s) ∧
    (∀ j : Fin 16, j.val = k →
      (s.setKey k pressed).key[j] = pressed ∧ (∀ i : Fin 16, i ≠ j → (s.setKey k pressed).key[i] = s.key[i]) ∧
      { s.setKey k pressed with key := s.key } = s)

/-- The pixel query reads cell (x, y) inside 64 x 32 and is refused outside it (spec/70_reset_and_hazards.md R297; the
spec's decision D22, log entry 20). -/
def Obligations.PixelQueryReadsOneCell : Prop :=
  ∀ (s : State) (x y : Nat),
    (∀ (row : Fin 32) (col : Fin 64), row.val = y → col.val = x → s.pixel x y = .ok (cellOn s.fb row col)) ∧
    (63 < x ∨ 31 < y → s.pixel x y = .error (.pixelOutside x y))

/-- A jump to itself, the good end of a run, is a fixed point of the step, and so is a halted state, the bad end
(spec/60_exceptions.md R265; the spec's decision D30, log entry 25). -/
def Obligations.EndStatesAreFixedPoints : Prop :=
  ∀ s : State, s.endsWell = true ∨ s.endsBadly = true → step s = .next s
end

