-- ==== Sys2Proof/Laws/Decode.lean ====
section
/-! SUPPORT. The fields of a packed word are the fields it was packed from, and back (spec/30_encoding.md R82). -/

namespace Sys2Proof

theorem nibbleAt_val (w : Word) (lo : Nat) : (nibbleAt w lo).val = w.toNat / 2 ^ lo % 16 := by
  simp [nibbleAt, Nat.shiftRight_eq_div_pow]

theorem byteField_toNat (w : Word) : (byteField w).toNat = w.toNat % 256 := by
  simp [byteField]

theorem addrField_toNat (w : Word) : (addrField w).toNat = w.toNat % 4096 := by
  simp [addrField]

theorem packXYN_toNat (f x y n : Nibble) : (packXYN f x y n).toNat = f.val * 4096 + x.val * 256 + y.val * 16 + n.val := by
  have := f.isLt; have := x.isLt; have := y.isLt; have := n.isLt
  simp only [packXYN, BitVec.toNat_append, BitVec.toNat_ofFin, Nat.shiftLeft_eq]
  rw [← Nat.shiftLeft_eq, ← Nat.shiftLeft_add_eq_or_of_lt (by omega), ← Nat.shiftLeft_eq,
    ← Nat.shiftLeft_add_eq_or_of_lt (by omega), ← Nat.shiftLeft_eq, ← Nat.shiftLeft_add_eq_or_of_lt (by omega)]
  simp only [Nat.shiftLeft_eq]
  omega

theorem packXKK_toNat (f x : Nibble) (kk : Byte) : (packXKK f x kk).toNat = f.val * 4096 + x.val * 256 + kk.toNat := by
  have := f.isLt; have := x.isLt; have := kk.isLt
  simp only [packXKK, BitVec.toNat_append, BitVec.toNat_ofFin, Nat.shiftLeft_eq]
  rw [← Nat.shiftLeft_eq, ← Nat.shiftLeft_add_eq_or_of_lt (by omega), ← Nat.shiftLeft_eq,
    ← Nat.shiftLeft_add_eq_or_of_lt (by omega)]
  simp only [Nat.shiftLeft_eq]
  omega

theorem packNNN_toNat (f : Nibble) (nnn : Addr12) : (packNNN f nnn).toNat = f.val * 4096 + nnn.toNat := by
  have := f.isLt; have := nnn.isLt
  simp only [packNNN, BitVec.toNat_append, BitVec.toNat_ofFin]
  rw [← Nat.shiftLeft_add_eq_or_of_lt (by omega)]
  simp only [Nat.shiftLeft_eq]

@[simp] theorem nibblesOf_packXYN (f x y n : Nibble) : nibblesOf (packXYN f x y n) = { f := f, x := x, y := y, n := n } := by
  have := f.isLt; have := x.isLt; have := y.isLt; have := n.isLt
  simp only [nibblesOf, Nibbles.mk.injEq, Fin.ext_iff, nibbleAt_val, packXYN_toNat]
  omega

@[simp] theorem nibblesOf_packXKK_f (f x : Nibble) (kk : Byte) : (nibblesOf (packXKK f x kk)).f = f := by
  have := f.isLt; have := x.isLt; have := kk.isLt
  simp only [nibblesOf, Fin.ext_iff, nibbleAt_val, packXKK_toNat]
  omega

@[simp] theorem nibblesOf_packXKK_x (f x : Nibble) (kk : Byte) : (nibblesOf (packXKK f x kk)).x = x := by
  have := f.isLt; have := x.isLt; have := kk.isLt
  simp only [nibblesOf, Fin.ext_iff, nibbleAt_val, packXKK_toNat]
  omega

@[simp] theorem byteField_packXKK (f x : Nibble) (kk : Byte) : byteField (packXKK f x kk) = kk := by
  have := f.isLt; have := x.isLt; have := kk.isLt
  apply BitVec.eq_of_toNat_eq
  simp only [byteField_toNat, packXKK_toNat]
  omega

@[simp] theorem nibblesOf_packNNN_f (f : Nibble) (nnn : Addr12) : (nibblesOf (packNNN f nnn)).f = f := by
  have := f.isLt; have := nnn.isLt
  simp only [nibblesOf, Fin.ext_iff, nibbleAt_val, packNNN_toNat]
  omega

@[simp] theorem addrField_packNNN (f : Nibble) (nnn : Addr12) : addrField (packNNN f nnn) = nnn := by
  have := f.isLt; have := nnn.isLt
  apply BitVec.eq_of_toNat_eq
  simp only [addrField_toNat, packNNN_toNat]
  omega

/-- A word is what its four nibbles pack to. -/
theorem packXYN_nibblesOf (w : Word) :
    packXYN (nibblesOf w).f (nibblesOf w).x (nibblesOf w).y (nibblesOf w).n = w := by
  have := w.isLt
  apply BitVec.eq_of_toNat_eq
  simp only [packXYN_toNat, nibblesOf, nibbleAt_val]
  omega

/-- A word is what its family, `X` and `KK` pack to. -/
theorem packXKK_fields (w : Word) : packXKK (nibblesOf w).f (nibblesOf w).x (byteField w) = w := by
  have := w.isLt
  apply BitVec.eq_of_toNat_eq
  simp only [packXKK_toNat, nibblesOf, nibbleAt_val, byteField_toNat]
  omega

/-- A word is what its family and `NNN` pack to. -/
theorem packNNN_fields (w : Word) : packNNN (nibblesOf w).f (addrField w) = w := by
  have := w.isLt
  apply BitVec.eq_of_toNat_eq
  simp only [packNNN_toNat, nibblesOf, nibbleAt_val, addrField_toNat]
  omega

/-- The two bytes of a word in memory give the word back (spec/20_memory.md R62). -/
@[simp] theorem wordOfBytes_bytes (w : Word) : wordOfBytes (highByte w) (lowByte w) = w := by
  have := w.isLt
  apply BitVec.eq_of_toNat_eq
  simp only [wordOfBytes, highByte, lowByte, BitVec.toNat_append, BitVec.extractLsb'_toNat]
  rw [← Nat.shiftLeft_add_eq_or_of_lt (by omega)]
  simp only [Nat.shiftLeft_eq, Nat.shiftRight_eq_div_pow]
  omega

theorem wordOfBytes_toNat (hi lo : Byte) : (wordOfBytes hi lo).toNat = hi.toNat * 256 + lo.toNat := by
  have := lo.isLt
  simp only [wordOfBytes, BitVec.toNat_append]
  rw [← Nat.shiftLeft_add_eq_or_of_lt (by omega)]
  simp only [Nat.shiftLeft_eq]

@[simp] theorem highByte_wordOfBytes (hi lo : Byte) : highByte (wordOfBytes hi lo) = hi := by
  have := hi.isLt; have := lo.isLt
  apply BitVec.eq_of_toNat_eq
  simp only [highByte, BitVec.extractLsb'_toNat, wordOfBytes_toNat, Nat.shiftRight_eq_div_pow]
  omega

@[simp] theorem lowByte_wordOfBytes (hi lo : Byte) : lowByte (wordOfBytes hi lo) = lo := by
  have := hi.isLt; have := lo.isLt
  apply BitVec.eq_of_toNat_eq
  simp only [lowByte, BitVec.extractLsb'_toNat, wordOfBytes_toNat, Nat.shiftRight_eq_div_pow]
  omega

/-! The three masks of the opcode table, as arithmetic. -/

theorem and_F000_toNat (w : Word) : (w &&& 0xF000).toNat = w.toNat / 4096 * 4096 := by
  have h : w &&& 0xF000 = w.extractLsb' 12 4 ++ 0#12 := by
    apply BitVec.eq_of_getLsbD_eq
    intro i hi
    interval_cases i <;> simp only [BitVec.getLsbD_and, BitVec.getLsbD_append, BitVec.getLsbD_extractLsb'] <;> simp
  rw [h, BitVec.toNat_append, ← Nat.shiftLeft_add_eq_or_of_lt (by simp)]
  simp only [BitVec.extractLsb'_toNat, Nat.shiftLeft_eq, Nat.shiftRight_eq_div_pow]
  have := w.isLt
  simp
  omega

theorem and_F00F_toNat (w : Word) : (w &&& 0xF00F).toNat = w.toNat / 4096 * 4096 + w.toNat % 16 := by
  have h : w &&& 0xF00F = w.extractLsb' 12 4 ++ 0#8 ++ w.extractLsb' 0 4 := by
    apply BitVec.eq_of_getLsbD_eq
    intro i hi
    interval_cases i <;> simp only [BitVec.getLsbD_and, BitVec.getLsbD_append, BitVec.getLsbD_extractLsb'] <;> simp
  have hx := (w.extractLsb' 0 4).isLt
  rw [h, BitVec.toNat_append, ← Nat.shiftLeft_add_eq_or_of_lt (by simpa using hx), BitVec.toNat_append,
    ← Nat.shiftLeft_add_eq_or_of_lt (by simp)]
  simp only [BitVec.extractLsb'_toNat, Nat.shiftLeft_eq, Nat.shiftRight_eq_div_pow]
  have := w.isLt
  simp
  omega

theorem and_F0FF_toNat (w : Word) : (w &&& 0xF0FF).toNat = w.toNat / 4096 * 4096 + w.toNat % 256 := by
  have h : w &&& 0xF0FF = w.extractLsb' 12 4 ++ 0#4 ++ w.extractLsb' 0 8 := by
    apply BitVec.eq_of_getLsbD_eq
    intro i hi
    interval_cases i <;> simp only [BitVec.getLsbD_and, BitVec.getLsbD_append, BitVec.getLsbD_extractLsb'] <;> simp
  have hx := (w.extractLsb' 0 8).isLt
  rw [h, BitVec.toNat_append, ← Nat.shiftLeft_add_eq_or_of_lt (by simpa using hx), BitVec.toNat_append,
    ← Nat.shiftLeft_add_eq_or_of_lt (by simp)]
  simp only [BitVec.extractLsb'_toNat, Nat.shiftLeft_eq, Nat.shiftRight_eq_div_pow]
  have := w.isLt
  simp
  omega

/-- A row of mask 0xF000 selects the words of one family. -/
theorem selects_F000 (w : Word) (f : Nibble) :
    (OpcodeRow.mk 0xF000 (BitVec.ofNat 16 (f.val * 4096))).selects w = true ↔ (nibblesOf w).f = f := by
  have := w.isLt; have := f.isLt
  simp only [OpcodeRow.selects, decide_eq_true_eq, ← BitVec.toNat_inj, and_F000_toNat, BitVec.toNat_ofNat, nibblesOf,
    Fin.ext_iff, nibbleAt_val]
  omega

/-- A row of mask 0xF00F selects the words of one family with one last nibble. -/
theorem selects_F00F (w : Word) (f n : Nibble) :
    (OpcodeRow.mk 0xF00F (BitVec.ofNat 16 (f.val * 4096 + n.val))).selects w = true ↔
      (nibblesOf w).f = f ∧ (nibblesOf w).n = n := by
  have := w.isLt; have := f.isLt; have := n.isLt
  simp only [OpcodeRow.selects, decide_eq_true_eq, ← BitVec.toNat_inj, and_F00F_toNat, BitVec.toNat_ofNat, nibblesOf,
    Fin.ext_iff, nibbleAt_val]
  omega

/-- A row of mask 0xF0FF selects the words of one family with one low byte. -/
theorem selects_F0FF (w : Word) (f : Nibble) (kk : Byte) :
    (OpcodeRow.mk 0xF0FF (BitVec.ofNat 16 (f.val * 4096 + kk.toNat))).selects w = true ↔
      (nibblesOf w).f = f ∧ byteField w = kk := by
  have := w.isLt; have := f.isLt; have := kk.isLt
  simp only [OpcodeRow.selects, decide_eq_true_eq, ← BitVec.toNat_inj, and_F0FF_toNat, BitVec.toNat_ofNat, nibblesOf,
    Fin.ext_iff, nibbleAt_val, byteField_toNat]
  omega

end Sys2Proof
end

