-- ==== Sys2Proof/Laws/Display.lean ====
section
/-! SUPPORT. What drawing does to each cell and to the flag (spec/43_display.md R200, R202, R204). -/

namespace Sys2Proof.Machine

theorem fb_ext {f g : Framebuffer} (h : ∀ r c, cellOn f r c = cellOn g r c) : f = g := by
  apply Vector.ext
  intro r hr
  apply Vector.ext
  intro c hc
  exact h ⟨r, hr⟩ ⟨c, hc⟩

@[simp] theorem cellOn_clearFb (r : Fin 32) (c : Fin 64) : cellOn clearFb r c = false := by
  simp [cellOn, clearFb]

/-- Toggling a cell changes that cell and no other. -/
theorem cellOn_toggleCell (f : Framebuffer) (p : CellPos) (r : Fin 32) (c : Fin 64) :
    cellOn (toggleCell f p) r c = if p = (r, c) then !cellOn f r c else cellOn f r c := by
  obtain ⟨pr, pc⟩ := p
  unfold cellOn toggleCell
  by_cases hr : pr = r
  · subst hr
    by_cases hc : pc = c
    · subst hc; simp
    · have hn : ¬ pc.val = c.val := fun e => hc (Fin.ext e)
      simp [hc, hn]
  · have hn : ¬ pr.val = r.val := fun e => hr (Fin.ext e)
    simp [hr, hn]

theorem foldl_plot_fst (ps : List CellPos) (d : Framebuffer × Bool) (r : Fin 32) (c : Fin 64) :
    cellOn (ps.foldl plot d).1 r c = (cellOn d.1 r c ^^ decide (ps.count (r, c) % 2 = 1)) := by
  induction ps generalizing d with
  | nil => simp
  | cons p ps ih =>
    rw [List.foldl_cons, ih]
    simp only [plot, cellOn_toggleCell, List.count_cons]
    by_cases hp : p = (r, c)
    · subst hp
      rcases Nat.mod_two_eq_zero_or_one (ps.count (r, c)) with h | h <;> simp [h, Nat.add_mod]
    · have : (p == (r, c)) = false := by simpa using hp
      simp [hp]

/-- After drawing, a cell differs from before exactly when it is listed an odd number of times. -/
theorem cellOn_drawCells (f : Framebuffer) (ps : List CellPos) (r : Fin 32) (c : Fin 64) :
    cellOn (drawCells f ps).1 r c = (cellOn f r c ^^ decide (ps.count (r, c) % 2 = 1)) := foldl_plot_fst ps (f, false) r c

theorem cellOn_drawCells_of_nodup {f : Framebuffer} {ps : List CellPos} (h : ps.Nodup) (r : Fin 32) (c : Fin 64) :
    cellOn (drawCells f ps).1 r c = (cellOn f r c ^^ decide ((r, c) ∈ ps)) := by
  rw [cellOn_drawCells, List.Nodup.count h]
  split <;> simp_all

theorem foldl_plot_snd {ps : List CellPos} (h : ps.Nodup) (d : Framebuffer × Bool) :
    (ps.foldl plot d).2 = true ↔ d.2 = true ∨ ∃ p ∈ ps, cellOn d.1 p.1 p.2 = true := by
  induction ps generalizing d with
  | nil => simp
  | cons p ps ih =>
    rw [List.nodup_cons] at h
    rw [List.foldl_cons, ih h.2]
    have hkeep : ∀ q ∈ ps, cellOn (plot d p).1 q.1 q.2 = cellOn d.1 q.1 q.2 := by
      intro q hq
      have hne : ¬ p = (q.1, q.2) := fun e => h.1 (by rw [e]; exact hq)
      simp [plot, cellOn_toggleCell, hne]
    constructor
    · rintro (h1 | ⟨q, hq, h1⟩)
      · by_cases hp : cellOn d.1 p.1 p.2 = true
        · exact .inr ⟨p, by simp, hp⟩
        · exact .inl (by simpa [plot, hp] using h1)
      · exact .inr ⟨q, by simp [hq], by rw [← hkeep q hq]; exact h1⟩
    · rintro (h1 | ⟨q, hq, h1⟩)
      · exact .inl (by simp [plot, h1])
      · rcases List.mem_cons.mp hq with rfl | hq
        · exact .inl (by simp [plot, h1])
        · exact .inr ⟨q, hq, by rw [hkeep q hq]; exact h1⟩

/-- The flag of a draw whose cells are all different: some listed cell was on before it (spec/43_display.md R202). -/
theorem flag_drawCells {f : Framebuffer} {ps : List CellPos} (h : ps.Nodup) :
    (drawCells f ps).2 = true ↔ ∃ p ∈ ps, cellOn f p.1 p.2 = true := by
  simp [drawCells, foldl_plot_snd h]

theorem cellAt_inj {ox oy : Byte} {r r' c c' : Nat} (hr : r < 32) (hr' : r' < 32) (hc : c < 64) (hc' : c' < 64)
    (h : cellAt ox oy r c = cellAt ox oy r' c') : r = r' ∧ c = c' := by
  simp only [cellAt, Prod.mk.injEq, Fin.ext_iff, Fin.ofNat] at h
  omega

theorem mem_rowCells {ox oy : Byte} {r : Nat} {b : Byte} {p : CellPos} :
    p ∈ rowCells ox oy r b ↔ ∃ c < 8, spritePixel b c = true ∧ cellAt ox oy r c = p := by
  simp [rowCells, and_assoc]

/-- The cells under a sprite: one for each pixel of value 1 (spec/43_display.md R204). -/
theorem mem_spriteCells {ox oy : Byte} {r : Nat} {bs : List Byte} {p : CellPos} :
    p ∈ spriteCells ox oy r bs ↔
      ∃ k, ∃ hk : k < bs.length, ∃ c < 8, spritePixel bs[k] c = true ∧ cellAt ox oy (r + k) c = p := by
  induction bs generalizing r with
  | nil => simp [spriteCells]
  | cons b bs ih =>
    rw [spriteCells, List.mem_append, mem_rowCells, ih]
    constructor
    · rintro (⟨c, hc, h⟩ | ⟨k, hk, c, hc, h1, h2⟩)
      · exact ⟨0, by simp, c, hc, h⟩
      · exact ⟨k + 1, by simpa using hk, c, hc, by simpa using h1, by rw [← h2]; congr 1; omega⟩
    · rintro ⟨k, hk, c, hc, h1, h2⟩
      cases k with
      | zero => exact .inl ⟨c, hc, h1, h2⟩
      | succ k =>
        exact .inr ⟨k, by simpa using hk, c, hc, by simpa using h1, by rw [← h2]; congr 1; omega⟩

theorem nodup_rowCells (ox oy : Byte) {r : Nat} (hr : r < 32) (b : Byte) : (rowCells ox oy r b).Nodup := by
  unfold rowCells
  refine List.Nodup.map_on ?_ (List.nodup_range.filter _)
  intro c hc c' hc' h
  simp only [List.mem_filter, List.mem_range] at hc hc'
  exact (cellAt_inj hr hr (by omega) (by omega) h).2

/-- Two pixels of one draw never land in the same cell (spec/43_display.md R204). -/
theorem nodup_spriteCells (ox oy : Byte) {r : Nat} {bs : List Byte} (h : r + bs.length ≤ 32) :
    (spriteCells ox oy r bs).Nodup := by
  induction bs generalizing r with
  | nil => simp [spriteCells]
  | cons b bs ih =>
    simp only [List.length_cons] at h
    rw [spriteCells, List.nodup_append]
    refine ⟨nodup_rowCells ox oy (by omega) b, ih (by omega), ?_⟩
    rintro p hp q hq rfl
    obtain ⟨c, hc, _, h1⟩ := mem_rowCells.mp hp
    obtain ⟨k, hk, c', hc', _, h2⟩ := mem_spriteCells.mp hq
    have := (cellAt_inj (by omega) (by omega) (by omega) (by omega) (h1.trans h2.symm)).1
    omega

end Sys2Proof.Machine
end

