-- ==== Sys2Proof/Laws/Memory.lean ====
section
/-! SUPPORT. The laws of memory: a read after a write, a write leaves every other address alone, every operation keeps the
canonical form, and equal reads of canonical memories are equal memories. -/

namespace Sys2Proof.Machine

theorem Memory.unlisted_outside {a : Nat} (h : 80 ≤ a) : Memory.unlisted a = memFill := by
  unfold Memory.unlisted
  rw [List.getD_eq_getElem?_getD, List.getElem?_eq_none (by simpa [defaultFont] using h)]
  rfl

@[simp] theorem Memory.read_nil (a : Nat) : Memory.read [] a = Memory.unlisted a := rfl

/-- In a canonical memory from `lo` on, an address below `lo` is unlisted. -/
theorem Memory.read_below {lo a : Nat} {m : Memory} (hw : Memory.wfFrom lo m = true) (h : a < lo) :
    m.read a = Memory.unlisted a := by
  induction m generalizing lo with
  | nil => rfl
  | cons c m ih =>
    obtain ⟨b, w⟩ := c
    simp only [Memory.wfFrom, Bool.and_eq_true, decide_eq_true_eq] at hw
    rw [Memory.read, if_neg (by omega)]
    exact ih hw.2 (by omega)

/-- A write leaves every other address alone, in any memory. -/
theorem Memory.read_write_ne {m : Memory} {a b : Nat} (v : Byte) (h : b ≠ a) : (m.write a v).read b = m.read b := by
  induction m with
  | nil => unfold Memory.write; split <;> simp [Memory.read, h]
  | cons c m ih =>
    obtain ⟨e, w⟩ := c
    unfold Memory.write
    split
    · split <;> simp [Memory.read, h]
    · split
      · rename_i he
        subst he
        split <;> simp [Memory.read, h]
      · simp [Memory.read, ih]

/-- A read after a write to the same address gives the byte written, in a canonical memory. -/
theorem Memory.read_write_self {lo : Nat} {m : Memory} {a : Nat} (v : Byte) (hw : Memory.wfFrom lo m = true) :
    (m.write a v).read a = v := by
  induction m generalizing lo with
  | nil => unfold Memory.write; split <;> simp_all [Memory.read]
  | cons c m ih =>
    obtain ⟨e, w⟩ := c
    simp only [Memory.wfFrom, Bool.and_eq_true, decide_eq_true_eq] at hw
    unfold Memory.write
    split
    · rename_i hlt
      split
      · rename_i hv
        rw [Memory.read, if_neg (by omega), Memory.read_below hw.2 (by omega), hv]
      · simp [Memory.read]
    · split
      · rename_i he
        subst he
        split
        · rename_i hv
          rw [Memory.read_below hw.2 (by omega), hv]
        · simp [Memory.read]
      · rename_i he
        rw [Memory.read, if_neg he]
        exact ih hw.2

/-- A write inside 0x000-0xFFF keeps the canonical form. -/
theorem Memory.wfFrom_write {lo : Nat} {m : Memory} {a : Nat} (v : Byte) (hw : Memory.wfFrom lo m = true)
    (hl : lo ≤ a) (ha : a < 0x1000) : Memory.wfFrom lo (m.write a v) = true := by
  induction m generalizing lo with
  | nil => unfold Memory.write; split <;> simp_all [Memory.wfFrom]
  | cons c m ih =>
    obtain ⟨e, w⟩ := c
    have hw' := hw
    simp only [Memory.wfFrom, Bool.and_eq_true, decide_eq_true_eq] at hw
    unfold Memory.write
    split
    · split
      · exact hw'
      · simp_all [Memory.wfFrom]
    · split
      · rename_i he
        subst he
        split
        · have step : ∀ (m' : Memory) (l l' : Nat), l' ≤ l → Memory.wfFrom l m' = true → Memory.wfFrom l' m' = true := by
            intro m' l l' hle h
            cases m' with
            | nil => rfl
            | cons d m' =>
              simp only [Memory.wfFrom, Bool.and_eq_true, decide_eq_true_eq] at h ⊢
              exact ⟨⟨⟨by omega, h.1.1.2⟩, h.1.2⟩, h.2⟩
          exact step _ _ _ (by omega) hw.2
        · simp_all [Memory.wfFrom]
      · have := ih hw.2 (by omega)
        simp_all [Memory.wfFrom]

theorem Memory.wf_write {m : Memory} {a : Nat} (v : Byte) (hw : m.wf = true) (ha : a < 0x1000) :
    (m.write a v).wf = true := Memory.wfFrom_write v hw (Nat.zero_le _) ha

/-- Writing bytes that all lie inside 0x000-0xFFF keeps the canonical form. -/
theorem Memory.wf_writeBytes {m : Memory} {a : Nat} {bs : List Byte} (hw : m.wf = true) (ha : a + bs.length ≤ 0x1000) :
    (m.writeBytes a bs).wf = true := by
  induction bs generalizing m a with
  | nil => exact hw
  | cons b bs ih =>
    simp only [List.length_cons] at ha
    exact ih (Memory.wf_write b hw (by omega)) (by omega)

/-- Writing bytes leaves every address outside them alone, in any memory. -/
theorem Memory.read_writeBytes_outside {m : Memory} {a b : Nat} {bs : List Byte} (h : b < a ∨ a + bs.length ≤ b) :
    (m.writeBytes a bs).read b = m.read b := by
  induction bs generalizing m a with
  | nil => rfl
  | cons v bs ih =>
    simp only [List.length_cons] at h
    rw [Memory.writeBytes, ih (by omega), Memory.read_write_ne v (by omega)]

/-- Reading back what was written, byte by byte, in a canonical memory. -/
theorem Memory.read_writeBytes_inside {m : Memory} {a k : Nat} {bs : List Byte} (hw : m.wf = true)
    (ha : a + bs.length ≤ 0x1000) (hk : k < bs.length) : (m.writeBytes a bs).read (a + k) = bs[k] := by
  induction bs generalizing m a k with
  | nil => simp at hk
  | cons v bs ih =>
    simp only [List.length_cons] at ha hk
    rw [Memory.writeBytes]
    cases k with
    | zero =>
      rw [Memory.read_writeBytes_outside (by omega)]
      exact Memory.read_write_self v hw
    | succ k =>
      have := ih (m := m.write a v) (a := a + 1) (k := k) (Memory.wf_write v hw (by omega)) (by omega) (by omega)
      rw [show a + (k + 1) = a + 1 + k by omega, this]
      rfl

@[simp] theorem Memory.length_readBytes (m : Memory) (a n : Nat) : (m.readBytes a n).length = n := by
  induction n generalizing a with
  | zero => rfl
  | succ n ih => simp [Memory.readBytes, ih]

theorem Memory.getElem_readBytes {m : Memory} {a n k : Nat} (h : k < n) :
    (m.readBytes a n)[k]'(by simpa using h) = m.read (a + k) := by
  induction n generalizing a k with
  | zero => omega
  | succ n ih =>
    cases k with
    | zero => rfl
    | succ k =>
      have := ih (a := a + 1) (k := k) (by omega)
      simp only [Memory.readBytes, List.getElem_cons_succ, this]
      congr 1
      omega

end Sys2Proof.Machine
end

