-- ==== Sys2Proof/Laws/State.lean ====
section
/-! SUPPORT. One lemma per field per update of State, true by unfolding the record update, so that no later proof unfolds one. -/

namespace Sys2Proof.Machine

variable (s : State)

@[simp] theorem State.setV_mem (r : Reg) (b : Byte) : (s.setV r b).mem = s.mem := rfl
@[simp] theorem State.setV_v (r : Reg) (b : Byte) : (s.setV r b).v = s.v.set r.val b r.isLt := rfl
@[simp] theorem State.setV_i (r : Reg) (b : Byte) : (s.setV r b).i = s.i := rfl
@[simp] theorem State.setV_pc (r : Reg) (b : Byte) : (s.setV r b).pc = s.pc := rfl
@[simp] theorem State.setV_sp (r : Reg) (b : Byte) : (s.setV r b).sp = s.sp := rfl
@[simp] theorem State.setV_stack (r : Reg) (b : Byte) : (s.setV r b).stack = s.stack := rfl
@[simp] theorem State.setV_dt (r : Reg) (b : Byte) : (s.setV r b).dt = s.dt := rfl
@[simp] theorem State.setV_st (r : Reg) (b : Byte) : (s.setV r b).st = s.st := rfl
@[simp] theorem State.setV_key (r : Reg) (b : Byte) : (s.setV r b).key = s.key := rfl
@[simp] theorem State.setV_fb (r : Reg) (b : Byte) : (s.setV r b).fb = s.fb := rfl
@[simp] theorem State.setV_halt (r : Reg) (b : Byte) : (s.setV r b).halt = s.halt := rfl
@[simp] theorem State.setV_draws (r : Reg) (b : Byte) : (s.setV r b).draws = s.draws := rfl
@[simp] theorem State.setV_params (r : Reg) (b : Byte) : (s.setV r b).params = s.params := rfl

@[simp] theorem State.setI_mem (w : Word) : (s.setI w).mem = s.mem := rfl
@[simp] theorem State.setI_v (w : Word) : (s.setI w).v = s.v := rfl
@[simp] theorem State.setI_i (w : Word) : (s.setI w).i = w := rfl
@[simp] theorem State.setI_pc (w : Word) : (s.setI w).pc = s.pc := rfl
@[simp] theorem State.setI_sp (w : Word) : (s.setI w).sp = s.sp := rfl
@[simp] theorem State.setI_stack (w : Word) : (s.setI w).stack = s.stack := rfl
@[simp] theorem State.setI_dt (w : Word) : (s.setI w).dt = s.dt := rfl
@[simp] theorem State.setI_st (w : Word) : (s.setI w).st = s.st := rfl
@[simp] theorem State.setI_key (w : Word) : (s.setI w).key = s.key := rfl
@[simp] theorem State.setI_fb (w : Word) : (s.setI w).fb = s.fb := rfl
@[simp] theorem State.setI_halt (w : Word) : (s.setI w).halt = s.halt := rfl
@[simp] theorem State.setI_draws (w : Word) : (s.setI w).draws = s.draws := rfl
@[simp] theorem State.setI_params (w : Word) : (s.setI w).params = s.params := rfl
@[simp] theorem State.setI_getV (w : Word) (q : Reg) : (s.setI w).getV q = s.getV q := rfl

@[simp] theorem State.setPc_mem (w : Word) : (s.setPc w).mem = s.mem := rfl
@[simp] theorem State.setPc_v (w : Word) : (s.setPc w).v = s.v := rfl
@[simp] theorem State.setPc_i (w : Word) : (s.setPc w).i = s.i := rfl
@[simp] theorem State.setPc_pc (w : Word) : (s.setPc w).pc = w := rfl
@[simp] theorem State.setPc_sp (w : Word) : (s.setPc w).sp = s.sp := rfl
@[simp] theorem State.setPc_stack (w : Word) : (s.setPc w).stack = s.stack := rfl
@[simp] theorem State.setPc_dt (w : Word) : (s.setPc w).dt = s.dt := rfl
@[simp] theorem State.setPc_st (w : Word) : (s.setPc w).st = s.st := rfl
@[simp] theorem State.setPc_key (w : Word) : (s.setPc w).key = s.key := rfl
@[simp] theorem State.setPc_fb (w : Word) : (s.setPc w).fb = s.fb := rfl
@[simp] theorem State.setPc_halt (w : Word) : (s.setPc w).halt = s.halt := rfl
@[simp] theorem State.setPc_draws (w : Word) : (s.setPc w).draws = s.draws := rfl
@[simp] theorem State.setPc_params (w : Word) : (s.setPc w).params = s.params := rfl
@[simp] theorem State.setPc_getV (w : Word) (q : Reg) : (s.setPc w).getV q = s.getV q := rfl

@[simp] theorem State.setMem_mem (m : Memory) : (s.setMem m).mem = m := rfl
@[simp] theorem State.setMem_v (m : Memory) : (s.setMem m).v = s.v := rfl
@[simp] theorem State.setMem_i (m : Memory) : (s.setMem m).i = s.i := rfl
@[simp] theorem State.setMem_pc (m : Memory) : (s.setMem m).pc = s.pc := rfl
@[simp] theorem State.setMem_sp (m : Memory) : (s.setMem m).sp = s.sp := rfl
@[simp] theorem State.setMem_stack (m : Memory) : (s.setMem m).stack = s.stack := rfl
@[simp] theorem State.setMem_dt (m : Memory) : (s.setMem m).dt = s.dt := rfl
@[simp] theorem State.setMem_st (m : Memory) : (s.setMem m).st = s.st := rfl
@[simp] theorem State.setMem_key (m : Memory) : (s.setMem m).key = s.key := rfl
@[simp] theorem State.setMem_fb (m : Memory) : (s.setMem m).fb = s.fb := rfl
@[simp] theorem State.setMem_halt (m : Memory) : (s.setMem m).halt = s.halt := rfl
@[simp] theorem State.setMem_draws (m : Memory) : (s.setMem m).draws = s.draws := rfl
@[simp] theorem State.setMem_params (m : Memory) : (s.setMem m).params = s.params := rfl
@[simp] theorem State.setMem_getV (m : Memory) (q : Reg) : (s.setMem m).getV q = s.getV q := rfl

@[simp] theorem State.setDt_mem (b : Byte) : (s.setDt b).mem = s.mem := rfl
@[simp] theorem State.setDt_v (b : Byte) : (s.setDt b).v = s.v := rfl
@[simp] theorem State.setDt_i (b : Byte) : (s.setDt b).i = s.i := rfl
@[simp] theorem State.setDt_pc (b : Byte) : (s.setDt b).pc = s.pc := rfl
@[simp] theorem State.setDt_sp (b : Byte) : (s.setDt b).sp = s.sp := rfl
@[simp] theorem State.setDt_stack (b : Byte) : (s.setDt b).stack = s.stack := rfl
@[simp] theorem State.setDt_dt (b : Byte) : (s.setDt b).dt = b := rfl
@[simp] theorem State.setDt_st (b : Byte) : (s.setDt b).st = s.st := rfl
@[simp] theorem State.setDt_key (b : Byte) : (s.setDt b).key = s.key := rfl
@[simp] theorem State.setDt_fb (b : Byte) : (s.setDt b).fb = s.fb := rfl
@[simp] theorem State.setDt_halt (b : Byte) : (s.setDt b).halt = s.halt := rfl
@[simp] theorem State.setDt_draws (b : Byte) : (s.setDt b).draws = s.draws := rfl
@[simp] theorem State.setDt_params (b : Byte) : (s.setDt b).params = s.params := rfl
@[simp] theorem State.setDt_getV (b : Byte) (q : Reg) : (s.setDt b).getV q = s.getV q := rfl

@[simp] theorem State.setSt_mem (b : Byte) : (s.setSt b).mem = s.mem := rfl
@[simp] theorem State.setSt_v (b : Byte) : (s.setSt b).v = s.v := rfl
@[simp] theorem State.setSt_i (b : Byte) : (s.setSt b).i = s.i := rfl
@[simp] theorem State.setSt_pc (b : Byte) : (s.setSt b).pc = s.pc := rfl
@[simp] theorem State.setSt_sp (b : Byte) : (s.setSt b).sp = s.sp := rfl
@[simp] theorem State.setSt_stack (b : Byte) : (s.setSt b).stack = s.stack := rfl
@[simp] theorem State.setSt_dt (b : Byte) : (s.setSt b).dt = s.dt := rfl
@[simp] theorem State.setSt_st (b : Byte) : (s.setSt b).st = b := rfl
@[simp] theorem State.setSt_key (b : Byte) : (s.setSt b).key = s.key := rfl
@[simp] theorem State.setSt_fb (b : Byte) : (s.setSt b).fb = s.fb := rfl
@[simp] theorem State.setSt_halt (b : Byte) : (s.setSt b).halt = s.halt := rfl
@[simp] theorem State.setSt_draws (b : Byte) : (s.setSt b).draws = s.draws := rfl
@[simp] theorem State.setSt_params (b : Byte) : (s.setSt b).params = s.params := rfl
@[simp] theorem State.setSt_getV (b : Byte) (q : Reg) : (s.setSt b).getV q = s.getV q := rfl

@[simp] theorem State.setFb_mem (f : Framebuffer) : (s.setFb f).mem = s.mem := rfl
@[simp] theorem State.setFb_v (f : Framebuffer) : (s.setFb f).v = s.v := rfl
@[simp] theorem State.setFb_i (f : Framebuffer) : (s.setFb f).i = s.i := rfl
@[simp] theorem State.setFb_pc (f : Framebuffer) : (s.setFb f).pc = s.pc := rfl
@[simp] theorem State.setFb_sp (f : Framebuffer) : (s.setFb f).sp = s.sp := rfl
@[simp] theorem State.setFb_stack (f : Framebuffer) : (s.setFb f).stack = s.stack := rfl
@[simp] theorem State.setFb_dt (f : Framebuffer) : (s.setFb f).dt = s.dt := rfl
@[simp] theorem State.setFb_st (f : Framebuffer) : (s.setFb f).st = s.st := rfl
@[simp] theorem State.setFb_key (f : Framebuffer) : (s.setFb f).key = s.key := rfl
@[simp] theorem State.setFb_fb (f : Framebuffer) : (s.setFb f).fb = f := rfl
@[simp] theorem State.setFb_halt (f : Framebuffer) : (s.setFb f).halt = s.halt := rfl
@[simp] theorem State.setFb_draws (f : Framebuffer) : (s.setFb f).draws = s.draws := rfl
@[simp] theorem State.setFb_params (f : Framebuffer) : (s.setFb f).params = s.params := rfl
@[simp] theorem State.setFb_getV (f : Framebuffer) (q : Reg) : (s.setFb f).getV q = s.getV q := rfl

@[simp] theorem State.advance_mem : (s.advance).mem = s.mem := rfl
@[simp] theorem State.advance_v : (s.advance).v = s.v := rfl
@[simp] theorem State.advance_i : (s.advance).i = s.i := rfl
@[simp] theorem State.advance_pc : (s.advance).pc = s.pc + 2 := rfl
@[simp] theorem State.advance_sp : (s.advance).sp = s.sp := rfl
@[simp] theorem State.advance_stack : (s.advance).stack = s.stack := rfl
@[simp] theorem State.advance_dt : (s.advance).dt = s.dt := rfl
@[simp] theorem State.advance_st : (s.advance).st = s.st := rfl
@[simp] theorem State.advance_key : (s.advance).key = s.key := rfl
@[simp] theorem State.advance_fb : (s.advance).fb = s.fb := rfl
@[simp] theorem State.advance_halt : (s.advance).halt = s.halt := rfl
@[simp] theorem State.advance_draws : (s.advance).draws = s.draws := rfl
@[simp] theorem State.advance_params : (s.advance).params = s.params := rfl
@[simp] theorem State.advance_getV (q : Reg) : (s.advance).getV q = s.getV q := rfl

@[simp] theorem State.countDraw_mem : (s.countDraw).mem = s.mem := rfl
@[simp] theorem State.countDraw_v : (s.countDraw).v = s.v := rfl
@[simp] theorem State.countDraw_i : (s.countDraw).i = s.i := rfl
@[simp] theorem State.countDraw_pc : (s.countDraw).pc = s.pc := rfl
@[simp] theorem State.countDraw_sp : (s.countDraw).sp = s.sp := rfl
@[simp] theorem State.countDraw_stack : (s.countDraw).stack = s.stack := rfl
@[simp] theorem State.countDraw_dt : (s.countDraw).dt = s.dt := rfl
@[simp] theorem State.countDraw_st : (s.countDraw).st = s.st := rfl
@[simp] theorem State.countDraw_key : (s.countDraw).key = s.key := rfl
@[simp] theorem State.countDraw_fb : (s.countDraw).fb = s.fb := rfl
@[simp] theorem State.countDraw_halt : (s.countDraw).halt = s.halt := rfl
@[simp] theorem State.countDraw_draws : (s.countDraw).draws = s.draws + 1 := rfl
@[simp] theorem State.countDraw_params : (s.countDraw).params = s.params := rfl
@[simp] theorem State.countDraw_getV (q : Reg) : (s.countDraw).getV q = s.getV q := rfl

@[simp] theorem State.bumpI_mem (x : Reg) : (s.bumpI x).mem = s.mem := rfl
@[simp] theorem State.bumpI_v (x : Reg) : (s.bumpI x).v = s.v := rfl
@[simp] theorem State.bumpI_i (x : Reg) : (s.bumpI x).i = s.i + BitVec.ofNat 16 (x.val + 1) := rfl
@[simp] theorem State.bumpI_pc (x : Reg) : (s.bumpI x).pc = s.pc := rfl
@[simp] theorem State.bumpI_sp (x : Reg) : (s.bumpI x).sp = s.sp := rfl
@[simp] theorem State.bumpI_stack (x : Reg) : (s.bumpI x).stack = s.stack := rfl
@[simp] theorem State.bumpI_dt (x : Reg) : (s.bumpI x).dt = s.dt := rfl
@[simp] theorem State.bumpI_st (x : Reg) : (s.bumpI x).st = s.st := rfl
@[simp] theorem State.bumpI_key (x : Reg) : (s.bumpI x).key = s.key := rfl
@[simp] theorem State.bumpI_fb (x : Reg) : (s.bumpI x).fb = s.fb := rfl
@[simp] theorem State.bumpI_halt (x : Reg) : (s.bumpI x).halt = s.halt := rfl
@[simp] theorem State.bumpI_draws (x : Reg) : (s.bumpI x).draws = s.draws := rfl
@[simp] theorem State.bumpI_params (x : Reg) : (s.bumpI x).params = s.params := rfl
@[simp] theorem State.bumpI_getV (x : Reg) (q : Reg) : (s.bumpI x).getV q = s.getV q := rfl

@[simp] theorem State.raise_mem (f : Fault) (w : Option Word) : (s.raise f w).mem = s.mem := rfl
@[simp] theorem State.raise_v (f : Fault) (w : Option Word) : (s.raise f w).v = s.v := rfl
@[simp] theorem State.raise_i (f : Fault) (w : Option Word) : (s.raise f w).i = s.i := rfl
@[simp] theorem State.raise_pc (f : Fault) (w : Option Word) : (s.raise f w).pc = s.pc := rfl
@[simp] theorem State.raise_sp (f : Fault) (w : Option Word) : (s.raise f w).sp = s.sp := rfl
@[simp] theorem State.raise_stack (f : Fault) (w : Option Word) : (s.raise f w).stack = s.stack := rfl
@[simp] theorem State.raise_dt (f : Fault) (w : Option Word) : (s.raise f w).dt = s.dt := rfl
@[simp] theorem State.raise_st (f : Fault) (w : Option Word) : (s.raise f w).st = s.st := rfl
@[simp] theorem State.raise_key (f : Fault) (w : Option Word) : (s.raise f w).key = s.key := rfl
@[simp] theorem State.raise_fb (f : Fault) (w : Option Word) : (s.raise f w).fb = s.fb := rfl
@[simp] theorem State.raise_halt (f : Fault) (w : Option Word) : (s.raise f w).halt = some { fault := f, addr := s.pc, word := w } := rfl
@[simp] theorem State.raise_draws (f : Fault) (w : Option Word) : (s.raise f w).draws = s.draws := rfl
@[simp] theorem State.raise_params (f : Fault) (w : Option Word) : (s.raise f w).params = s.params := rfl
@[simp] theorem State.raise_getV (f : Fault) (w : Option Word) (q : Reg) : (s.raise f w).getV q = s.getV q := rfl

@[simp] theorem State.setKey_mem (k : Nat) (b : Bool) : (s.setKey k b).mem = s.mem := rfl
@[simp] theorem State.setKey_v (k : Nat) (b : Bool) : (s.setKey k b).v = s.v := rfl
@[simp] theorem State.setKey_i (k : Nat) (b : Bool) : (s.setKey k b).i = s.i := rfl
@[simp] theorem State.setKey_pc (k : Nat) (b : Bool) : (s.setKey k b).pc = s.pc := rfl
@[simp] theorem State.setKey_sp (k : Nat) (b : Bool) : (s.setKey k b).sp = s.sp := rfl
@[simp] theorem State.setKey_stack (k : Nat) (b : Bool) : (s.setKey k b).stack = s.stack := rfl
@[simp] theorem State.setKey_dt (k : Nat) (b : Bool) : (s.setKey k b).dt = s.dt := rfl
@[simp] theorem State.setKey_st (k : Nat) (b : Bool) : (s.setKey k b).st = s.st := rfl
@[simp] theorem State.setKey_key (k : Nat) (b : Bool) : (s.setKey k b).key = s.key.setIfInBounds k b := rfl
@[simp] theorem State.setKey_fb (k : Nat) (b : Bool) : (s.setKey k b).fb = s.fb := rfl
@[simp] theorem State.setKey_halt (k : Nat) (b : Bool) : (s.setKey k b).halt = s.halt := rfl
@[simp] theorem State.setKey_draws (k : Nat) (b : Bool) : (s.setKey k b).draws = s.draws := rfl
@[simp] theorem State.setKey_params (k : Nat) (b : Bool) : (s.setKey k b).params = s.params := rfl
@[simp] theorem State.setKey_getV (k : Nat) (b : Bool) (q : Reg) : (s.setKey k b).getV q = s.getV q := rfl

/-- Reading a register after a write to one. -/
@[simp] theorem State.getV_setV (r q : Reg) (b : Byte) : (s.setV r b).getV q = if q = r then b else s.getV q := by
  unfold State.getV State.setV
  by_cases h : q = r
  · subst h; simp
  · have hn : ¬ r.val = q.val := fun e => h (Fin.ext e.symm)
    simp [h, hn]

theorem State.getV_setV_self (r : Reg) (b : Byte) : (s.setV r b).getV r = b := by simp

theorem State.getV_setV_ne {r q : Reg} (h : q ≠ r) (b : Byte) : (s.setV r b).getV q = s.getV q := by simp [h]

/-- Two register files that read alike are one: what the general registers hold is all they are. -/
theorem State.v_ext {s t : State} (h : ∀ r : Reg, t.getV r = s.getV r) : t.v = s.v := by
  apply Vector.ext
  intro j hj
  exact h ⟨j, hj⟩

/-- The skip writes PC only. -/
@[simp] theorem State.skipIf_pc (c : Bool) : (s.skipIf c).pc = if c then s.pc + 2 else s.pc := by
  cases c <;> rfl

/-- A taken skip leaves PC at A + 4, one not taken at A + 2 (spec/40_control.md R101). -/
theorem State.skip_pc (c : Bool) : (s.advance.skipIf c).pc = if c then s.pc + 4 else s.pc + 2 := by
  cases c
  · rfl
  · show s.pc + 2 + 2 = s.pc + 4
    rw [BitVec.add_assoc]
    rfl

@[simp] theorem State.skipIf_mem (c : Bool) : (s.skipIf c).mem = s.mem := by cases c <;> rfl
@[simp] theorem State.skipIf_v (c : Bool) : (s.skipIf c).v = s.v := by cases c <;> rfl
@[simp] theorem State.skipIf_i (c : Bool) : (s.skipIf c).i = s.i := by cases c <;> rfl
@[simp] theorem State.skipIf_sp (c : Bool) : (s.skipIf c).sp = s.sp := by cases c <;> rfl
@[simp] theorem State.skipIf_stack (c : Bool) : (s.skipIf c).stack = s.stack := by cases c <;> rfl
@[simp] theorem State.skipIf_dt (c : Bool) : (s.skipIf c).dt = s.dt := by cases c <;> rfl
@[simp] theorem State.skipIf_st (c : Bool) : (s.skipIf c).st = s.st := by cases c <;> rfl
@[simp] theorem State.skipIf_key (c : Bool) : (s.skipIf c).key = s.key := by cases c <;> rfl
@[simp] theorem State.skipIf_fb (c : Bool) : (s.skipIf c).fb = s.fb := by cases c <;> rfl
@[simp] theorem State.skipIf_halt (c : Bool) : (s.skipIf c).halt = s.halt := by cases c <;> rfl
@[simp] theorem State.skipIf_draws (c : Bool) : (s.skipIf c).draws = s.draws := by cases c <;> rfl
@[simp] theorem State.skipIf_params (c : Bool) : (s.skipIf c).params = s.params := by cases c <;> rfl
@[simp] theorem State.skipIf_getV (c : Bool) (q : Reg) : (s.skipIf c).getV q = s.getV q := by cases c <;> rfl

@[simp] theorem State.setVFlag_mem (x : Reg) (r : Byte × Bool) : (s.setVFlag x r).mem = s.mem := rfl
@[simp] theorem State.setVFlag_i (x : Reg) (r : Byte × Bool) : (s.setVFlag x r).i = s.i := rfl
@[simp] theorem State.setVFlag_pc (x : Reg) (r : Byte × Bool) : (s.setVFlag x r).pc = s.pc := rfl
@[simp] theorem State.setVFlag_sp (x : Reg) (r : Byte × Bool) : (s.setVFlag x r).sp = s.sp := rfl
@[simp] theorem State.setVFlag_stack (x : Reg) (r : Byte × Bool) : (s.setVFlag x r).stack = s.stack := rfl
@[simp] theorem State.setVFlag_dt (x : Reg) (r : Byte × Bool) : (s.setVFlag x r).dt = s.dt := rfl
@[simp] theorem State.setVFlag_st (x : Reg) (r : Byte × Bool) : (s.setVFlag x r).st = s.st := rfl
@[simp] theorem State.setVFlag_key (x : Reg) (r : Byte × Bool) : (s.setVFlag x r).key = s.key := rfl
@[simp] theorem State.setVFlag_fb (x : Reg) (r : Byte × Bool) : (s.setVFlag x r).fb = s.fb := rfl
@[simp] theorem State.setVFlag_halt (x : Reg) (r : Byte × Bool) : (s.setVFlag x r).halt = s.halt := rfl
@[simp] theorem State.setVFlag_draws (x : Reg) (r : Byte × Bool) : (s.setVFlag x r).draws = s.draws := rfl
@[simp] theorem State.setVFlag_params (x : Reg) (r : Byte × Bool) : (s.setVFlag x r).params = s.params := rfl

/-- The result is written first and the flag last: VF ends as the flag (spec/41_alu.md R131). -/
@[simp] theorem State.setVFlag_getV (x : Reg) (r : Byte × Bool) (q : Reg) :
    (s.setVFlag x r).getV q = if q = regF then flagByte r.2 else if q = x then r.1 else s.getV q := by
  simp [State.setVFlag]

end Sys2Proof.Machine
end

