-- ==== Sys2Proof/Laws/Ops.lean ====
section
/-! SUPPORT. One lemma per shared operation that says everything it can do; later proofs cite it instead of unfolding the
operation. -/

namespace Sys2Proof.Machine

variable {s t : State}

/-- A committed instruction answers the next state its body gives, or the state before it with the fault record. -/
theorem State.commit_ok {i : Instr} {body : State → Except Fault State} (h : body s.advance = .ok t) :
    s.commit i body = .next t := by
  simp [State.commit, h]

theorem State.commit_error {i : Instr} {body : State → Except Fault State} {f : Fault} (h : body s.advance = .error f) :
    s.commit i body = .next (s.raise f (some (encode i))) := by
  simp [State.commit, h]

/-- The inversion of a committed instruction: it completed, or it raised and committed nothing. -/
theorem State.commit_cases {i : Instr} {body : State → Except Fault State} (h : s.commit i body = .next t) :
    body s.advance = .ok t ∨ ∃ f, body s.advance = .error f ∧ t = s.raise f (some (encode i)) := by
  unfold State.commit at h
  split at h
  · rename_i u hu
    cases h
    exact .inl hu
  · rename_i f hf
    cases h
    exact .inr ⟨f, hf, rfl⟩

/-- A committed instruction always answers a next state. -/
theorem State.commit_next (s : State) (i : Instr) (body : State → Except Fault State) :
    ∃ u, s.commit i body = .next u := by
  unfold State.commit
  split <;> exact ⟨_, rfl⟩

/-- The inversion of a push: the stack was not full, and one slot and the pointer changed. -/
theorem State.push_cases {w : Word} (h : s.push w = .ok t) :
    ∃ hs : s.sp.val < 16, t = { s with stack := s.stack.set s.sp.val w hs, sp := ⟨s.sp.val + 1, by omega⟩ } := by
  unfold State.push at h
  split at h
  · rename_i hs
    cases h
    exact ⟨hs, rfl⟩
  · cases h

theorem State.push_full {w : Word} (h : s.sp = 16) : s.push w = .error .stackOverflow := by
  unfold State.push
  simp [h]

theorem State.push_error {w : Word} {f : Fault} (h : s.push w = .error f) : f = .stackOverflow ∧ s.sp = 16 := by
  unfold State.push at h
  split at h
  · cases h
  · rename_i hs
    cases h
    exact ⟨rfl, Fin.ext (by have := s.sp.isLt; simp; omega)⟩

/-- The inversion of a pop: the stack was not empty, and only the pointer and PC changed. -/
theorem State.popPc_cases (h : s.popPc = .ok t) :
    ∃ j : Fin 16, s.sp.val = j.val + 1 ∧
      t = { s with sp := ⟨j.val, by omega⟩, pc := s.stack[j] } := by
  unfold State.popPc at h
  split at h
  · cases h
  · rename_i hs
    cases h
    have hlt := s.sp.isLt
    exact ⟨⟨s.sp.val - 1, by omega⟩, by simp; omega, rfl⟩

theorem State.popPc_error {f : Fault} (h : s.popPc = .error f) : f = .stackUnderflow ∧ s.sp = 0 := by
  unfold State.popPc at h
  split at h
  · rename_i hs
    cases h
    exact ⟨rfl, Fin.ext hs⟩
  · cases h

theorem inRange_iff {a n : Nat} : inRange a n = true ↔ n = 0 ∨ a + n ≤ 0x1000 := by
  simp [inRange]

/-- The range check: the rest of the instruction, or the fault with the first address above 0xFFF. -/
theorem checkRange_cases {a n : Nat} {rest : State} {r : Except Fault State} (h : checkRange a n rest = r) :
    ((n = 0 ∨ a + n ≤ 0x1000) ∧ r = .ok rest) ∨
      (¬ (n = 0 ∨ a + n ≤ 0x1000) ∧ r = .error (.memRange (max a 0x1000))) := by
  unfold checkRange at h
  split at h
  · rename_i hc
    exact .inl ⟨inRange_iff.mp hc, h.symm⟩
  · rename_i hc
    exact .inr ⟨fun hn => hc (inRange_iff.mpr hn), h.symm⟩

theorem checkRange_ok {a n : Nat} {rest : State} (h : n = 0 ∨ a + n ≤ 0x1000) : checkRange a n rest = .ok rest := by
  simp [checkRange, inRange_iff.mpr h]

theorem checkRange_error {a n : Nat} {rest : State} (h : ¬ (n = 0 ∨ a + n ≤ 0x1000)) :
    checkRange a n rest = .error (.memRange (max a 0x1000)) := by
  simp [checkRange, inRange, h, firstOutside]

/-- A loaded register file: the first `n` registers come from memory, the others are as before. -/
theorem getElem_loadFrom (m : Memory) (a n : Nat) (v : Vector Byte 16) (j : Nat) (hj : j < 16) :
    (loadFrom m a n v)[j] = if j < n then m.read (a + j) else v[j] := by
  induction n with
  | zero => simp [loadFrom]
  | succ k ih =>
    simp only [loadFrom, Vector.getElem_setIfInBounds, ih]
    split
    · rename_i h
      subst h
      simp
    · rename_i h
      split <;> split <;> first | rfl | omega

theorem State.length_regsTo (s : State) (x : Reg) : (s.regsTo x).length = x.val + 1 := by
  simp [State.regsTo]

theorem State.getElem_regsTo (s : State) (x : Reg) (j : Reg) (h : j.val ≤ x.val) :
    (s.regsTo x)[j.val]'(by rw [State.length_regsTo]; omega) = s.getV j := by
  simp [State.regsTo, State.getV]

/-- The least pressed key: it is pressed and no key below it is. -/
theorem State.leastPressed_some {k : Fin 16} :
    s.leastPressed = some k ↔ s.keyPressed k = true ∧ ∀ j : Fin 16, j < k → s.keyPressed j = false := by
  unfold State.leastPressed
  rw [List.find?_eq_some_iff_getElem]
  constructor
  · rintro ⟨hk, i, hi, hik, hlt⟩
    refine ⟨hk, fun j hj => ?_⟩
    have hi' : i = k.val := by simpa [Fin.ext_iff] using hik
    have := hlt j.val (by rw [hi']; exact hj)
    simpa using this
  · rintro ⟨hk, hlt⟩
    refine ⟨hk, k.val, by simp, by simp, fun j hj => ?_⟩
    simpa using hlt ⟨j, by omega⟩ hj

theorem State.leastPressed_none : s.leastPressed = none ↔ ∀ k : Fin 16, s.keyPressed k = false := by
  simp [State.leastPressed]

/-- Fetch and decode: the word at PC decodes, or one of the two faults of a step outside an instruction. -/
theorem State.issue_cases (s : State) :
    (0xFFE < s.pc.toNat ∧ s.issue = .error (.fetchRange, none)) ∨
    (s.pc.toNat ≤ 0xFFE ∧
      ((∃ i, decodeWord s.params.decode8xy8 (s.mem.readWord s.pc.toNat) = .ok i ∧ s.issue = .ok i) ∨
       (∃ e, decodeWord s.params.decode8xy8 (s.mem.readWord s.pc.toNat) = .error e ∧
          s.issue = .error (.unknownOpcode, some (s.mem.readWord s.pc.toNat))))) := by
  unfold State.issue
  by_cases h : s.pc.toNat > 0xFFE
  · simp [h]
  · refine .inr ⟨by omega, ?_⟩
    rw [if_neg h]
    cases hd : decodeWord s.params.decode8xy8 (s.mem.readWord s.pc.toNat) with
    | ok i => exact .inl ⟨i, rfl, rfl⟩
    | error e => exact .inr ⟨e, rfl, rfl⟩

end Sys2Proof.Machine
end

