-- ==== Sys2Proof/Laws/Exec.lean ====
section
/-! SUPPORT. What each meaning answers, in the named operations: one lemma per instruction, which later proofs cite instead
of unfolding `exec`. -/

namespace Sys2Proof.Machine

variable (s : State)

theorem exec_cls : exec .cls s = .next (s.advance.setFb clearFb) := rfl

theorem exec_ret_ok (j : Fin 16) (h : s.sp.val = j.val + 1) :
    exec .ret s = .next { s with sp := ⟨j.val, by omega⟩, pc := s.stack[j] } := by
  unfold exec execRet
  refine State.commit_ok ?_
  simp [State.popPc, h, State.advance, State.setPc]

theorem exec_ret_empty (h : s.sp = 0) : exec .ret s = .next (s.raise .stackUnderflow (some (encode .ret))) := by
  unfold exec execRet
  exact State.commit_error (by simp [State.popPc, h])

theorem exec_jp (nnn : Addr12) : exec (.jp nnn) s = .next (s.advance.setPc (addrImm nnn)) := rfl

theorem exec_call_ok (nnn : Addr12) (h : s.sp.val < 16) :
    exec (.call nnn) s = .next { s with
      stack := s.stack.set s.sp.val (s.pc + 2) h, sp := ⟨s.sp.val + 1, by omega⟩, pc := addrImm nnn } := by
  unfold exec execCall
  refine State.commit_ok ?_
  simp [State.push, h, Except.map, State.setPc, State.advance]

theorem exec_call_full (nnn : Addr12) (h : s.sp = 16) :
    exec (.call nnn) s = .next (s.raise .stackOverflow (some (encode (.call nnn)))) := by
  unfold exec execCall
  refine State.commit_error ?_
  have hp : ∀ w, s.advance.push w = .error .stackOverflow := fun w => State.push_full (by simpa using h)
  simp [hp, Except.map]

theorem exec_seImm (x : Reg) (kk : Byte) : exec (.seImm x kk) s = .next (s.advance.skipIf (decide (s.getV x = kk))) := rfl

theorem exec_sneImm (x : Reg) (kk : Byte) : exec (.sneImm x kk) s = .next (s.advance.skipIf (decide (s.getV x ≠ kk))) := rfl

theorem exec_seReg (x y : Reg) : exec (.seReg x y) s = .next (s.advance.skipIf (decide (s.getV x = s.getV y))) := rfl

theorem exec_sneReg (x y : Reg) : exec (.sneReg x y) s = .next (s.advance.skipIf (decide (s.getV x ≠ s.getV y))) := rfl

theorem exec_ldImm (x : Reg) (kk : Byte) : exec (.ldImm x kk) s = .next (s.advance.setV x kk) := rfl

theorem exec_addImm (x : Reg) (kk : Byte) : exec (.addImm x kk) s = .next (s.advance.setV x (add8 (s.getV x) kk).1) := rfl

theorem exec_ldReg (x y : Reg) : exec (.ldReg x y) s = .next (s.advance.setV x (s.getV y)) := rfl

theorem exec_orReg (x y : Reg) : exec (.orReg x y) s = .next (s.advance.setV x (s.getV x ||| s.getV y)) := rfl

theorem exec_andReg (x y : Reg) : exec (.andReg x y) s = .next (s.advance.setV x (s.getV x &&& s.getV y)) := rfl

theorem exec_xorReg (x y : Reg) : exec (.xorReg x y) s = .next (s.advance.setV x (s.getV x ^^^ s.getV y)) := rfl

theorem exec_addReg (x y : Reg) : exec (.addReg x y) s = .next (s.advance.setVFlag x (add8 (s.getV x) (s.getV y))) := rfl

theorem exec_subReg (x y : Reg) : exec (.subReg x y) s = .next (s.advance.setVFlag x (sub8 (s.getV x) (s.getV y))) := rfl

theorem exec_subn (x y : Reg) : exec (.subn x y) s = .next (s.advance.setVFlag x (sub8 (s.getV y) (s.getV x))) := rfl

theorem exec_shr (x y : Reg) : exec (.shr x y) s = .next (s.advance.setVFlag x (shiftRight8 (s.shiftOperand x y))) := rfl

theorem exec_shl (x y : Reg) : exec (.shl x y) s = .next (s.advance.setVFlag x (shiftLeft8 (s.shiftOperand x y))) := rfl

theorem exec_shl8 (x y : Reg) : exec (.shl8 x y) s = .next (s.advance.setVFlag x (shiftLeft8 (s.shiftOperand x y))) := rfl

theorem exec_ldI (nnn : Addr12) : exec (.ldI nnn) s = .next (s.advance.setI (addrImm nnn)) := rfl

theorem exec_jpV0 (nnn : Addr12) : exec (.jpV0 nnn) s = .next (s.advance.setPc (addrImm nnn + byteImm (s.getV 0))) := rfl

theorem exec_rnd (x : Reg) (kk : Byte) :
    exec (.rnd x kk) s = .next (s.advance.countDraw.setV x (Config.randByte s.draws &&& kk)) := rfl

/-- The cells Dxyn toggles at a state. -/
def drawnCells (s : State) (x y : Reg) (n : Nibble) : List CellPos :=
  spriteCells (s.getV x) (s.getV y) 0 (s.mem.readBytes s.base n.val)

theorem nodup_drawnCells (s : State) (x y : Reg) (n : Nibble) : (drawnCells s x y n).Nodup :=
  nodup_spriteCells _ _ (by simp; omega)

theorem exec_drw_ok (x y : Reg) (n : Nibble) (h : n.val = 0 ∨ s.base + n.val ≤ 0x1000) :
    exec (.drw x y n) s = .next ((s.advance.setFb (drawCells s.fb (drawnCells s x y n)).1).setV regF
      (flagByte (drawCells s.fb (drawnCells s x y n)).2)) := by
  unfold exec execDrw
  exact State.commit_ok (checkRange_ok h)

theorem exec_drw_outside (x y : Reg) (n : Nibble) (h : ¬ (n.val = 0 ∨ s.base + n.val ≤ 0x1000)) :
    exec (.drw x y n) s = .next (s.raise (.memRange (max s.base 0x1000)) (some (encode (.drw x y n)))) := by
  unfold exec execDrw
  exact State.commit_error (checkRange_error h)

theorem exec_skp_ok (x : Reg) (k : Fin 16) (h : (s.getV x).toNat = k.val) :
    exec (.skp x) s = .next (s.advance.skipIf (s.keyPressed k)) := by
  unfold exec execSkp
  have hk : (s.getV x).toNat < 16 := by omega
  refine State.commit_ok ?_
  simp [State.keyOperand, h, Except.map, State.keyPressed]

theorem exec_sknp_ok (x : Reg) (k : Fin 16) (h : (s.getV x).toNat = k.val) :
    exec (.sknp x) s = .next (s.advance.skipIf (!s.keyPressed k)) := by
  unfold exec execSknp
  have hk : (s.getV x).toNat < 16 := by omega
  refine State.commit_ok ?_
  simp [State.keyOperand, h, Except.map, State.keyPressed]

theorem exec_skp_outside (x : Reg) (h : 15 < (s.getV x).toNat) :
    exec (.skp x) s = .next (s.raise (.keyRange (s.getV x)) (some (encode (.skp x)))) := by
  unfold exec execSkp
  refine State.commit_error ?_
  simp [State.keyOperand, Except.map, show ¬ (s.getV x).toNat < 16 by omega]

theorem exec_sknp_outside (x : Reg) (h : 15 < (s.getV x).toNat) :
    exec (.sknp x) s = .next (s.raise (.keyRange (s.getV x)) (some (encode (.sknp x)))) := by
  unfold exec execSknp
  refine State.commit_error ?_
  simp [State.keyOperand, Except.map, show ¬ (s.getV x).toNat < 16 by omega]

theorem exec_ldVxDt (x : Reg) : exec (.ldVxDt x) s = .next (s.advance.setV x s.dt) := rfl

theorem exec_ldVxK_pressed (x : Reg) (k : Fin 16) (h : s.leastPressed = some k) :
    exec (.ldVxK x) s = .next (s.advance.setV x (BitVec.ofNat 8 k.val)) := by
  unfold exec execLdVxK
  refine State.commit_ok ?_
  have h' : s.advance.leastPressed = some k := h
  simp [h']

theorem exec_ldVxK_stall (x : Reg) (h : s.leastPressed = none) : exec (.ldVxK x) s = .next s := by
  unfold exec execLdVxK
  refine State.commit_ok ?_
  have h' : s.advance.leastPressed = none := h
  simp only [h']
  simp [State.setPc, State.advance]

theorem exec_ldDtVx (x : Reg) : exec (.ldDtVx x) s = .next (s.advance.setDt (s.getV x)) := rfl

theorem exec_ldStVx (x : Reg) : exec (.ldStVx x) s = .next (s.advance.setSt (s.getV x)) := rfl

theorem exec_addI (x : Reg) :
    exec (.addI x) s = .next ((s.advance.setI (addIndex s.i (s.getV x)).1).setV regF
      (flagByte (addIndex s.i (s.getV x)).2)) := rfl

theorem exec_ldF (x : Reg) : exec (.ldF x) s = .next (s.advance.setI (byteImm (s.getV x) * 5)) := rfl

theorem exec_ldB_ok (x : Reg) (h : s.base + 3 ≤ 0x1000) :
    exec (.ldB x) s = .next (s.advance.setMem (s.mem.writeBytes s.base (bcdDigits (s.getV x)))) := by
  unfold exec execLdB
  exact State.commit_ok (checkRange_ok (.inr h))

theorem exec_ldB_outside (x : Reg) (h : 0x1000 < s.base + 3) :
    exec (.ldB x) s = .next (s.raise (.memRange (max s.base 0x1000)) (some (encode (.ldB x)))) := by
  unfold exec execLdB
  exact State.commit_error (checkRange_error (a := s.base) (n := 3) (by omega))

theorem exec_storeRegs_ok (x : Reg) (h : s.base + (x.val + 1) ≤ 0x1000) :
    exec (.storeRegs x) s = .next ((s.advance.setMem (s.mem.writeBytes s.base (s.regsTo x))).bumpI x) := by
  unfold exec execStoreRegs
  exact State.commit_ok (checkRange_ok (.inr h))

theorem exec_storeRegs_outside (x : Reg) (h : 0x1000 < s.base + (x.val + 1)) :
    exec (.storeRegs x) s = .next (s.raise (.memRange (max s.base 0x1000)) (some (encode (.storeRegs x)))) := by
  unfold exec execStoreRegs
  exact State.commit_error (checkRange_error (a := s.base) (n := x.val + 1) (by omega))

theorem exec_loadRegs_ok (x : Reg) (h : s.base + (x.val + 1) ≤ 0x1000) :
    exec (.loadRegs x) s =
      .next (State.bumpI { s.advance with v := loadFrom s.mem s.base (x.val + 1) s.v } x) := by
  unfold exec execLoadRegs
  exact State.commit_ok (checkRange_ok (.inr h))

theorem exec_loadRegs_outside (x : Reg) (h : 0x1000 < s.base + (x.val + 1)) :
    exec (.loadRegs x) s = .next (s.raise (.memRange (max s.base 0x1000)) (some (encode (.loadRegs x)))) := by
  unfold exec execLoadRegs
  exact State.commit_error (checkRange_error (a := s.base) (n := x.val + 1) (by omega))

/-- Every meaning is one commit of its own instruction. -/
theorem exec_eq_commit (i : Instr) : ∃ body, exec i s = s.commit i body := by
  cases i <;> unfold exec <;> exact ⟨_, rfl⟩

/-- Every instruction answers a next state at every state. -/
theorem exec_next (i : Instr) : ∃ t, exec i s = .next t := by
  obtain ⟨body, h⟩ := exec_eq_commit s i
  rw [h]
  exact State.commit_next s i body

/-! The inversions of the instructions that can fault or wait: each lemma lists every next state the instruction can
answer. The other instructions have one next state, given by their equation above. -/

variable {s} {t : State}

theorem exec_ret_cases (h : exec .ret s = .next t) :
    (∃ j : Fin 16, s.sp.val = j.val + 1 ∧ t = { s with sp := ⟨j.val, by omega⟩, pc := s.stack[j] }) ∨
      (s.sp = 0 ∧ t = s.raise .stackUnderflow (some (encode .ret))) := by
  by_cases hs : s.sp.val = 0
  · have hs' : s.sp = 0 := Fin.ext hs
    rw [exec_ret_empty s hs'] at h
    cases h
    exact .inr ⟨hs', rfl⟩
  · have hlt := s.sp.isLt
    have hj : s.sp.val = (⟨s.sp.val - 1, by omega⟩ : Fin 16).val + 1 := by simp; omega
    rw [exec_ret_ok s _ hj] at h
    cases h
    exact .inl ⟨_, hj, rfl⟩

theorem exec_call_cases {nnn : Addr12} (h : exec (.call nnn) s = .next t) :
    (∃ hs : s.sp.val < 16, t = { s with
      stack := s.stack.set s.sp.val (s.pc + 2) hs, sp := ⟨s.sp.val + 1, by omega⟩, pc := addrImm nnn }) ∨
      (s.sp = 16 ∧ t = s.raise .stackOverflow (some (encode (.call nnn)))) := by
  by_cases hs : s.sp.val < 16
  · rw [exec_call_ok s nnn hs] at h
    cases h
    exact .inl ⟨hs, rfl⟩
  · have hlt := s.sp.isLt
    have hs' : s.sp = 16 := Fin.ext (by simp; omega)
    rw [exec_call_full s nnn hs'] at h
    cases h
    exact .inr ⟨hs', rfl⟩

theorem exec_drw_cases {x y : Reg} {n : Nibble} (h : exec (.drw x y n) s = .next t) :
    ((n.val = 0 ∨ s.base + n.val ≤ 0x1000) ∧
      t = (s.advance.setFb (drawCells s.fb (drawnCells s x y n)).1).setV regF
        (flagByte (drawCells s.fb (drawnCells s x y n)).2)) ∨
      (¬ (n.val = 0 ∨ s.base + n.val ≤ 0x1000) ∧
        t = s.raise (.memRange (max s.base 0x1000)) (some (encode (.drw x y n)))) := by
  by_cases hr : n.val = 0 ∨ s.base + n.val ≤ 0x1000
  · rw [exec_drw_ok s x y n hr] at h
    cases h
    exact .inl ⟨hr, rfl⟩
  · rw [exec_drw_outside s x y n hr] at h
    cases h
    exact .inr ⟨hr, rfl⟩

theorem exec_skp_cases {x : Reg} (h : exec (.skp x) s = .next t) :
    (∃ k : Fin 16, (s.getV x).toNat = k.val ∧ t = s.advance.skipIf (s.keyPressed k)) ∨
      (15 < (s.getV x).toNat ∧ t = s.raise (.keyRange (s.getV x)) (some (encode (.skp x)))) := by
  by_cases hk : 15 < (s.getV x).toNat
  · rw [exec_skp_outside s x hk] at h
    cases h
    exact .inr ⟨hk, rfl⟩
  · rw [exec_skp_ok s x ⟨(s.getV x).toNat, by omega⟩ rfl] at h
    cases h
    exact .inl ⟨_, rfl, rfl⟩

theorem exec_sknp_cases {x : Reg} (h : exec (.sknp x) s = .next t) :
    (∃ k : Fin 16, (s.getV x).toNat = k.val ∧ t = s.advance.skipIf (!s.keyPressed k)) ∨
      (15 < (s.getV x).toNat ∧ t = s.raise (.keyRange (s.getV x)) (some (encode (.sknp x)))) := by
  by_cases hk : 15 < (s.getV x).toNat
  · rw [exec_sknp_outside s x hk] at h
    cases h
    exact .inr ⟨hk, rfl⟩
  · rw [exec_sknp_ok s x ⟨(s.getV x).toNat, by omega⟩ rfl] at h
    cases h
    exact .inl ⟨_, rfl, rfl⟩

theorem exec_ldVxK_cases {x : Reg} (h : exec (.ldVxK x) s = .next t) :
    (∃ k : Fin 16, s.leastPressed = some k ∧ t = s.advance.setV x (BitVec.ofNat 8 k.val)) ∨
      (s.leastPressed = none ∧ t = s) := by
  cases hk : s.leastPressed with
  | some k =>
    rw [exec_ldVxK_pressed s x k hk] at h
    cases h
    exact .inl ⟨k, rfl, rfl⟩
  | none =>
    rw [exec_ldVxK_stall s x hk] at h
    cases h
    exact .inr ⟨rfl, rfl⟩

theorem exec_ldB_cases {x : Reg} (h : exec (.ldB x) s = .next t) :
    (s.base + 3 ≤ 0x1000 ∧ t = s.advance.setMem (s.mem.writeBytes s.base (bcdDigits (s.getV x)))) ∨
      (0x1000 < s.base + 3 ∧ t = s.raise (.memRange (max s.base 0x1000)) (some (encode (.ldB x)))) := by
  by_cases hr : s.base + 3 ≤ 0x1000
  · rw [exec_ldB_ok s x hr] at h
    cases h
    exact .inl ⟨hr, rfl⟩
  · rw [exec_ldB_outside s x (by omega)] at h
    cases h
    exact .inr ⟨by omega, rfl⟩

theorem exec_storeRegs_cases {x : Reg} (h : exec (.storeRegs x) s = .next t) :
    (s.base + (x.val + 1) ≤ 0x1000 ∧ t = (s.advance.setMem (s.mem.writeBytes s.base (s.regsTo x))).bumpI x) ∨
      (0x1000 < s.base + (x.val + 1) ∧
        t = s.raise (.memRange (max s.base 0x1000)) (some (encode (.storeRegs x)))) := by
  by_cases hr : s.base + (x.val + 1) ≤ 0x1000
  · rw [exec_storeRegs_ok s x hr] at h
    cases h
    exact .inl ⟨hr, rfl⟩
  · rw [exec_storeRegs_outside s x (by omega)] at h
    cases h
    exact .inr ⟨by omega, rfl⟩

theorem exec_loadRegs_cases {x : Reg} (h : exec (.loadRegs x) s = .next t) :
    (s.base + (x.val + 1) ≤ 0x1000 ∧
      t = State.bumpI { s.advance with v := loadFrom s.mem s.base (x.val + 1) s.v } x) ∨
      (0x1000 < s.base + (x.val + 1) ∧
        t = s.raise (.memRange (max s.base 0x1000)) (some (encode (.loadRegs x)))) := by
  by_cases hr : s.base + (x.val + 1) ≤ 0x1000
  · rw [exec_loadRegs_ok s x hr] at h
    cases h
    exact .inl ⟨hr, rfl⟩
  · rw [exec_loadRegs_outside s x (by omega)] at h
    cases h
    exact .inr ⟨by omega, rfl⟩

/-- A step answers the state itself when halted, otherwise what fetch, decode and `exec` give. -/
theorem step_cases (s : State) :
    ((∃ r, s.halt = some r) ∧ step s = .next s) ∨
    (s.halt = none ∧ ∃ i, s.issue = .ok i ∧ step s = exec i s) ∨
    (s.halt = none ∧ ∃ f w, s.issue = .error (f, w) ∧ step s = .next (s.raise f w)) := by
  unfold step
  cases hh : s.halt with
  | some r => exact .inl ⟨⟨r, rfl⟩, rfl⟩
  | none =>
    cases hi : s.issue with
    | ok i => exact .inr (.inl ⟨rfl, i, rfl, rfl⟩)
    | error e => exact .inr (.inr ⟨rfl, e.1, e.2, rfl, rfl⟩)

end Sys2Proof.Machine
end

