-- ==== Sys2Proof/Laws/HostOps.lean ====
section
/-! SUPPORT. The bytes construction writes before the image (spec/70_reset_and_hazards.md R281), and that the state right
after reset has canonical memory. -/

namespace Sys2Proof.Machine

theorem State.reset_wf : State.reset.mem.wf = true := rfl

@[simp] theorem length_initialBytes (fill : Byte) (font : Vector Byte 80) : (initialBytes fill font).length = 4096 := by
  rw [initialBytes, List.length_append, List.length_replicate, Vector.length_toList]
  rfl

theorem getElem_initialBytes_font (fill : Byte) (font : Vector Byte 80) {a : Nat} (h : a < 80) :
    (initialBytes fill font)[a]'(by simp; omega) = font[a] := by
  simp only [initialBytes]
  rw [List.getElem_append_left (by simpa using h)]
  simp

theorem getElem_initialBytes_fill (fill : Byte) (font : Vector Byte 80) {a : Nat} (h : 80 ≤ a) (h' : a < 0x1000) :
    (initialBytes fill font)[a]'(by simpa using h') = fill := by
  simp only [initialBytes]
  rw [List.getElem_append_right (by simpa using h), List.getElem_replicate]

/-- The initial bytes written from address 0 on are a canonical memory. -/
theorem wf_initialBytes (fill : Byte) (font : Vector Byte 80) :
    (Memory.writeBytes [] 0 (initialBytes fill font)).wf = true :=
  Memory.wf_writeBytes rfl (by simp)

theorem read_initialBytes (fill : Byte) (font : Vector Byte 80) {a : Nat} (h : a < 0x1000) :
    (Memory.writeBytes [] 0 (initialBytes fill font)).read a = (initialBytes fill font)[a]'(by simpa using h) := by
  have := Memory.read_writeBytes_inside (m := []) (a := 0) (k := a) (bs := initialBytes fill font) rfl (by simp) (by simpa using h)
  rwa [Nat.zero_add] at this

end Sys2Proof.Machine
end

