-- ==== Sys2Proof/Laws/PerInstr.lean ====
section
/-! SUPPORT. The family EncodedFamily: the encoder writes each instruction's word with the fixed family nibble of its row
in spec/30_encoding.md R85. -/

namespace Sys2Proof.Laws.EncodedFamily

/-- The family nibble `F` of an instruction's row in spec/30_encoding.md R85. -/
def familyOf (i : Instr) : Nat :=
  match i with
  | .cls => 0x0
  | .ret => 0x0
  | .jp _ => 0x1
  | .call _ => 0x2
  | .seImm _ _ => 0x3
  | .sneImm _ _ => 0x4
  | .seReg _ _ => 0x5
  | .ldImm _ _ => 0x6
  | .addImm _ _ => 0x7
  | .ldReg _ _ => 0x8
  | .orReg _ _ => 0x8
  | .andReg _ _ => 0x8
  | .xorReg _ _ => 0x8
  | .addReg _ _ => 0x8
  | .subReg _ _ => 0x8
  | .shr _ _ => 0x8
  | .subn _ _ => 0x8
  | .shl8 _ _ => 0x8
  | .shl _ _ => 0x8
  | .sneReg _ _ => 0x9
  | .ldI _ => 0xA
  | .jpV0 _ => 0xB
  | .rnd _ _ => 0xC
  | .drw _ _ _ => 0xD
  | .skp _ => 0xE
  | .sknp _ => 0xE
  | .ldVxDt _ => 0xF
  | .ldVxK _ => 0xF
  | .ldDtVx _ => 0xF
  | .ldStVx _ => 0xF
  | .addI _ => 0xF
  | .ldF _ => 0xF
  | .ldB _ => 0xF
  | .storeRegs _ => 0xF
  | .loadRegs _ => 0xF

/-- The encoded word's family nibble is the row's. -/
def Statement (i : Instr) : Prop := (nibblesOf (encode i)).f.val = familyOf i

theorem cls : Statement (.cls) := by unfold Statement; decide
theorem ret : Statement (.ret) := by unfold Statement; decide
theorem jp (nnn : Addr12) : Statement (.jp nnn) := by simp [Statement, encode, familyOf]
theorem call (nnn : Addr12) : Statement (.call nnn) := by simp [Statement, encode, familyOf]
theorem seImm (x : Reg) (kk : Byte) : Statement (.seImm x kk) := by simp [Statement, encode, familyOf]
theorem sneImm (x : Reg) (kk : Byte) : Statement (.sneImm x kk) := by simp [Statement, encode, familyOf]
theorem seReg (x : Reg) (y : Reg) : Statement (.seReg x y) := by simp [Statement, encode, familyOf]
theorem ldImm (x : Reg) (kk : Byte) : Statement (.ldImm x kk) := by simp [Statement, encode, familyOf]
theorem addImm (x : Reg) (kk : Byte) : Statement (.addImm x kk) := by simp [Statement, encode, familyOf]
theorem ldReg (x : Reg) (y : Reg) : Statement (.ldReg x y) := by simp [Statement, encode, familyOf]
theorem orReg (x : Reg) (y : Reg) : Statement (.orReg x y) := by simp [Statement, encode, familyOf]
theorem andReg (x : Reg) (y : Reg) : Statement (.andReg x y) := by simp [Statement, encode, familyOf]
theorem xorReg (x : Reg) (y : Reg) : Statement (.xorReg x y) := by simp [Statement, encode, familyOf]
theorem addReg (x : Reg) (y : Reg) : Statement (.addReg x y) := by simp [Statement, encode, familyOf]
theorem subReg (x : Reg) (y : Reg) : Statement (.subReg x y) := by simp [Statement, encode, familyOf]
theorem shr (x : Reg) (y : Reg) : Statement (.shr x y) := by simp [Statement, encode, familyOf]
theorem subn (x : Reg) (y : Reg) : Statement (.subn x y) := by simp [Statement, encode, familyOf]
theorem shl8 (x : Reg) (y : Reg) : Statement (.shl8 x y) := by simp [Statement, encode, familyOf]
theorem shl (x : Reg) (y : Reg) : Statement (.shl x y) := by simp [Statement, encode, familyOf]
theorem sneReg (x : Reg) (y : Reg) : Statement (.sneReg x y) := by simp [Statement, encode, familyOf]
theorem ldI (nnn : Addr12) : Statement (.ldI nnn) := by simp [Statement, encode, familyOf]
theorem jpV0 (nnn : Addr12) : Statement (.jpV0 nnn) := by simp [Statement, encode, familyOf]
theorem rnd (x : Reg) (kk : Byte) : Statement (.rnd x kk) := by simp [Statement, encode, familyOf]
theorem drw (x : Reg) (y : Reg) (n : Nibble) : Statement (.drw x y n) := by simp [Statement, encode, familyOf]
theorem skp (x : Reg) : Statement (.skp x) := by simp [Statement, encode, familyOf]
theorem sknp (x : Reg) : Statement (.sknp x) := by simp [Statement, encode, familyOf]
theorem ldVxDt (x : Reg) : Statement (.ldVxDt x) := by simp [Statement, encode, familyOf]
theorem ldVxK (x : Reg) : Statement (.ldVxK x) := by simp [Statement, encode, familyOf]
theorem ldDtVx (x : Reg) : Statement (.ldDtVx x) := by simp [Statement, encode, familyOf]
theorem ldStVx (x : Reg) : Statement (.ldStVx x) := by simp [Statement, encode, familyOf]
theorem addI (x : Reg) : Statement (.addI x) := by simp [Statement, encode, familyOf]
theorem ldF (x : Reg) : Statement (.ldF x) := by simp [Statement, encode, familyOf]
theorem ldB (x : Reg) : Statement (.ldB x) := by simp [Statement, encode, familyOf]
theorem storeRegs (x : Reg) : Statement (.storeRegs x) := by simp [Statement, encode, familyOf]
theorem loadRegs (x : Reg) : Statement (.loadRegs x) := by simp [Statement, encode, familyOf]

end Sys2Proof.Laws.EncodedFamily
end

