-- ==== Sys2Proof/Tests/Slice0.lean ====
section
/-! SUPPORT. Tests: expected results from the vectors of spec/95_test_vectors.md or by hand from the rule named; each is one
step, or one host operation, on a small state. After them, a witness for the hypotheses of each statement. -/

open Sys2Proof Sys2Proof.Machine

namespace Sys2Proof.Tests

/-- The word stored at PC of a state, which is otherwise as after construction. -/
def prog (w : Word) (s : State := State.reset) : State := s.placeWord w

/-- The state after one step. -/
def after (s : State) : State :=
  match step s with
  | .next t => t
  | .fault _ => s
  | .refused _ => s

/-- The state after one instruction. -/
def execTo (i : Instr) (s : State) : State :=
  match exec i s with
  | .next t => t
  | .fault _ => s
  | .refused _ => s

/-- The construction state with V[x] = b. -/
def withV (x : Reg) (b : Byte) (s : State := State.reset) : State := s.setV x b

/-- The construction state with V[x] = a and V[y] = b. -/
def withVV (x : Reg) (a : Byte) (y : Reg) (b : Byte) : State := (State.reset.setV x a).setV y b

/-- Bytes stored at an address. -/
def withMem (a : Nat) (bs : List Byte) (s : State := State.reset) : State := s.setMem (s.mem.writeBytes a bs)

/-- The construction state with SP = n and every slot holding w. -/
def withStack (n : Fin 17) (w : Word) : State := { State.reset with sp := n, stack := Vector.replicate 16 w }

/-- The setting SHIFT_SOURCE = X. -/
def modeX (s : State) : State := { s with params := { s.params with shiftSource := .x } }

/-- The setting DECODE_8XY8 = UNKNOWN. -/
def no8xy8 (s : State) : State := { s with params := { s.params with decode8xy8 := .unknown } }

/-! ### Syntax, decoding, encoding -/

/-- The one check of `wellFormed` refuses 8xy8 where DECODE_8XY8 = UNKNOWN (R143). -/
theorem test_wellFormed_refuses_8xy8 : (Instr.shl8 1 2).wellFormed .unknown = false := by decide

theorem test_wellFormed_accepts_8xy8 : (Instr.shl8 1 2).wellFormed .shl = true := by decide

/-! Each constructor's word, written out from its row of spec/30_encoding.md R85. -/

theorem test_decode_cls : decodeWord .shl 0x00E0 = .ok .cls := by decide
theorem test_decode_ret : decodeWord .shl 0x00EE = .ok .ret := by decide
theorem test_decode_jp : decodeWord .shl 0x1234 = .ok (.jp 0x234) := by decide
theorem test_decode_call : decodeWord .shl 0x2ABC = .ok (.call 0xABC) := by decide
theorem test_decode_seImm : decodeWord .shl 0x3A42 = .ok (.seImm 10 0x42) := by decide
theorem test_decode_sneImm : decodeWord .shl 0x4B43 = .ok (.sneImm 11 0x43) := by decide
theorem test_decode_seReg : decodeWord .shl 0x5CD0 = .ok (.seReg 12 13) := by decide
theorem test_decode_ldImm : decodeWord .shl 0x6A9D = .ok (.ldImm 10 0x9D) := by decide
theorem test_decode_addImm : decodeWord .shl 0x7F02 = .ok (.addImm 15 2) := by decide
theorem test_decode_ldReg : decodeWord .shl 0x8BA0 = .ok (.ldReg 11 10) := by decide
theorem test_decode_orReg : decodeWord .shl 0x8121 = .ok (.orReg 1 2) := by decide
theorem test_decode_andReg : decodeWord .shl 0x8122 = .ok (.andReg 1 2) := by decide
theorem test_decode_xorReg : decodeWord .shl 0x8123 = .ok (.xorReg 1 2) := by decide
theorem test_decode_addReg : decodeWord .shl 0x8F14 = .ok (.addReg 15 1) := by decide
theorem test_decode_subReg : decodeWord .shl 0x8215 = .ok (.subReg 2 1) := by decide
theorem test_decode_shr : decodeWord .shl 0x8126 = .ok (.shr 1 2) := by decide
theorem test_decode_subn : decodeWord .shl 0x8127 = .ok (.subn 1 2) := by decide
theorem test_decode_shl8 : decodeWord .shl 0x8418 = .ok (.shl8 4 1) := by decide
theorem test_decode_shl : decodeWord .shl 0x841E = .ok (.shl 4 1) := by decide
theorem test_decode_sneReg : decodeWord .shl 0x9120 = .ok (.sneReg 1 2) := by decide
theorem test_decode_ldI : decodeWord .shl 0xA30F = .ok (.ldI 0x30F) := by decide
theorem test_decode_jpV0 : decodeWord .shl 0xB501 = .ok (.jpV0 0x501) := by decide
theorem test_decode_rnd : decodeWord .shl 0xC50F = .ok (.rnd 5 0x0F) := by decide
theorem test_decode_drw : decodeWord .shl 0xD123 = .ok (.drw 1 2 3) := by decide
theorem test_decode_skp : decodeWord .shl 0xE29E = .ok (.skp 2) := by decide
theorem test_decode_sknp : decodeWord .shl 0xE2A1 = .ok (.sknp 2) := by decide
theorem test_decode_ldVxDt : decodeWord .shl 0xF307 = .ok (.ldVxDt 3) := by decide
theorem test_decode_ldVxK : decodeWord .shl 0xF40A = .ok (.ldVxK 4) := by decide
theorem test_decode_ldDtVx : decodeWord .shl 0xF315 = .ok (.ldDtVx 3) := by decide
theorem test_decode_ldStVx : decodeWord .shl 0xF318 = .ok (.ldStVx 3) := by decide
theorem test_decode_addI : decodeWord .shl 0xF21E = .ok (.addI 2) := by decide
theorem test_decode_ldF : decodeWord .shl 0xF329 = .ok (.ldF 3) := by decide
theorem test_decode_ldB : decodeWord .shl 0xF533 = .ok (.ldB 5) := by decide
theorem test_decode_storeRegs : decodeWord .shl 0xF255 = .ok (.storeRegs 2) := by decide
theorem test_decode_loadRegs : decodeWord .shl 0xFF65 = .ok (.loadRegs 15) := by decide

/-- L2-4, L2-5, L2-6, L2-7, L2-8, L2-10, L2-11: strict decode. -/
theorem test_decode_rejects :
    decodeWord .shl 0x0000 = .error (.unknownOpcode 0x0000) ∧ decodeWord .shl 0x00E1 = .error (.unknownOpcode 0x00E1) ∧
    decodeWord .shl 0x5121 = .error (.unknownOpcode 0x5121) ∧ decodeWord .shl 0x9121 = .error (.unknownOpcode 0x9121) ∧
    decodeWord .shl 0x8129 = .error (.unknownOpcode 0x8129) ∧ decodeWord .shl 0xE09F = .error (.unknownOpcode 0xE09F) ∧
    decodeWord .shl 0xF000 = .error (.unknownOpcode 0xF000) := by decide

/-- R90: fewer than two bytes are no instruction. -/
theorem test_decode_truncated : decodeBytes .shl [0x12] = .error .truncated ∧ decodeBytes .shl [] = .error .truncated := by
  decide

/-- R62: the first byte is the high half of the word. -/
theorem test_decode_big_endian : decodeBytes .shl [0x6A, 0x9D, 0x33] = .ok (.ldImm 10 0x9D, [0x33]) := by decide

/-- The table's 8xy8 and Fx65 rows, read as the host reads them. -/
theorem test_decodeTableWord :
    decodeTableWord 16 0x8128 = some (.shl8 1 2) ∧ decodeTableWord 16 0xF165 = some (.loadRegs 1) ∧
    decodeTableWord 16 0x0123 = none := by decide

/-! ### Reset and fetch -/

theorem test_reset_invariant : State.reset.Inv := by unfold State.Inv; decide

/-- R283, R49: the glyph of F starts at 75 and the byte after the font is MEM_FILL. -/
theorem test_reset_font :
    State.reset.mem.read 75 = 0xF0 ∧ State.reset.mem.read 79 = 0x80 ∧ State.reset.mem.read 80 = 0 := by decide

/-- R282: the first step of an empty image meets the word 0x0000, no row of the table. -/
theorem test_reset_first_step :
    step State.reset = .next { State.reset with halt := some ⟨.unknownOpcode, 0x200, some 0x0000⟩ } := rfl

/-- The host's placing of a word makes the next step run it. -/
theorem test_withFetchWord_runs :
    step (State.reset.withFetchWord 16 0x6007) = exec (.ldImm 0 7) (State.reset.withFetchWord 16 0x6007) := rfl

/-- Storing what an unlisted byte reads as removes the entry: equal memories are equal data. -/
theorem test_memory_canonical : ((State.reset.mem.write 0x300 5).write 0x300 0) = State.reset.mem := by decide

/-- L2-1: 0xFFE is the last address a fetch succeeds from. -/
theorem test_fetch_last : (after (prog 0x1200 (State.reset.setPc 0xFFE))).pc = 0x200 := by decide

/-- L2-2, L2-3: above it the fetch faults and no word is recorded. -/
theorem test_fetch_range :
    (after (State.reset.setPc 0xFFF)).halt = some ⟨.fetchRange, 0xFFF, none⟩ ∧
    (after (State.reset.setPc 0x10FE)).halt = some ⟨.fetchRange, 0x10FE, none⟩ := by decide

/-- L2-12: an odd PC is legal. -/
theorem test_fetch_odd : (after (prog 0x6007 (State.reset.setPc 0x201))).pc = 0x203 := by decide

/-- L1-9: the report holds the address, the word and the nibble tuple; nothing else changes. -/
theorem test_unknown_opcode :
    after (prog 0x0123) = { prog 0x0123 with halt := some ⟨.unknownOpcode, 0x200, some 0x0123⟩ } ∧
    (FaultRecord.mk .unknownOpcode 0x200 (some 0x0123)).nibbles = some ⟨0, 1, 2, 3⟩ := by decide

/-- L2-9: under DECODE_8XY8 = UNKNOWN the word 8118 faults and V1 stays. -/
theorem test_unknown_8xy8 :
    (after (prog 0x8118 (no8xy8 (withV 1 0x80)))).halt = some ⟨.unknownOpcode, 0x200, some 0x8118⟩ ∧
    (after (prog 0x8118 (no8xy8 (withV 1 0x80)))).getV 1 = 0x80 := by decide

/-! ### Control transfer -/

/-- L2-14, L2-15. -/
theorem test_jp : (after (prog 0x1201)).pc = 0x201 ∧ (after (prog 0x1FFF)).pc = 0xFFF := by decide

/-- L2-17. -/
theorem test_call :
    (after (prog 0x2210 (State.reset.setPc 0x204))).stack[0] = 0x206 ∧
    (after (prog 0x2210 (State.reset.setPc 0x204))).sp = 1 ∧
    (after (prog 0x2210 (State.reset.setPc 0x204))).pc = 0x210 := by decide

/-- L2-19: STACK_OVERFLOW, code 4. -/
theorem test_call_overflow :
    after (prog 0x2ABC (withStack 16 0x202)) =
      { prog 0x2ABC (withStack 16 0x202) with halt := some ⟨.stackOverflow, 0x200, some 0x2ABC⟩ } := by decide

/-- L2-20: the slot keeps its value. -/
theorem test_ret :
    (after (prog 0x00EE ((withStack 1 0x206).setPc 0x212))).pc = 0x206 ∧
    (after (prog 0x00EE ((withStack 1 0x206).setPc 0x212))).sp = 0 ∧
    (after (prog 0x00EE ((withStack 1 0x206).setPc 0x212))).stack[0] = 0x206 := by decide

/-- L2-21. -/
theorem test_ret_underflow : (after (prog 0x00EE)).halt = some ⟨.stackUnderflow, 0x200, some 0x00EE⟩ := by decide

/-- L2-22, L2-23. -/
theorem test_seImm : (after (prog 0x3342 (withV 3 0x42))).pc = 0x204 ∧ (after (prog 0x3342 (withV 3 0x41))).pc = 0x202 := by
  decide

/-- L2-30: a skipped unknown word does not fault. -/
theorem test_skip_unknown_word :
    (after (prog 0x3000 (withMem 0x202 [0x01, 0x23]))).pc = 0x204 ∧
    (after (prog 0x3000 (withMem 0x202 [0x01, 0x23]))).halt = none := by decide

/-- L2-24, L2-25. -/
theorem test_sneImm : (after (prog 0x4342 (withV 3 0x42))).pc = 0x202 ∧ (after (prog 0x4342)).pc = 0x204 := by decide

/-- L2-26, and by R107 its other side. -/
theorem test_seReg : (after (prog 0x5120 ((withVV 1 7 2 7).setPc 0x300))).pc = 0x304 ∧
    (after (prog 0x5120 (withV 1 1))).pc = 0x202 := by decide

/-- L2-28, L2-29. -/
theorem test_sneReg : (after (prog 0x9120 (withV 1 1))).pc = 0x204 ∧ (after (prog 0x9110)).pc = 0x202 := by decide

/-- L2-33: the register is V0, not V5. -/
theorem test_jpV0 : (after (prog 0xB500 (withVV 0 0x01 5 0x40))).pc = 0x501 := by decide

/-- L2-32: not masked. -/
theorem test_jpV0_top : (after (prog 0xBFFF (withV 0 0xFF))).pc = 0x10FE := by decide

/-! ### Register arithmetic and logic -/

/-- L2-34. -/
theorem test_ldImm : (after (prog 0x6A9D)).getV 10 = 0x9D := by decide

/-- L2-35: no carry flag. -/
theorem test_addImm_wraps : (after (prog 0x7002 (withV 0 0xFF))).getV 0 = 1 ∧ (after (prog 0x7002 (withV 0 0xFF))).getV 15 = 0 := by
  decide

/-- L2-36: VF as data. -/
theorem test_addImm_vf : (after (prog 0x7FFF (withV 15 1))).getV 15 = 0 := by decide

/-- L1-1: x is the destination. -/
theorem test_ldReg : (after (prog 0x8BA0 (withV 10 0x9D))).getV 11 = 0x9D ∧ (after (prog 0x8BA0 (withV 10 0x9D))).getV 10 = 0x9D := by
  decide

/-- L2-37: VF is not touched. -/
theorem test_orReg :
    (after (prog 0x8121 (withV 15 0x55 (withVV 1 0xF0 2 0x0C)))).getV 1 = 0xFC ∧
    (after (prog 0x8121 (withV 15 0x55 (withVV 1 0xF0 2 0x0C)))).getV 15 = 0x55 := by decide

/-- L2-38. -/
theorem test_andReg : (after (prog 0x8122 (withVV 1 0xF0 2 0x3C))).getV 1 = 0x30 := by decide

/-- L2-38. -/
theorem test_xorReg : (after (prog 0x8123 (withVV 1 0xF0 2 0x3C))).getV 1 = 0xCC := by decide

/-- L2-39. -/
theorem test_xorReg_self : (after (prog 0x8113 (withV 1 0x77))).getV 1 = 0 := by decide

/-- L1-2: a sum of 255 is no carry. -/
theorem test_addReg :
    (after (prog 0x8014 (withVV 0 0xFF 1 0x81))).getV 0 = 0x80 ∧ (after (prog 0x8014 (withVV 0 0xFF 1 0x81))).getV 15 = 1 ∧
    (after (prog 0x8014 (withVV 0 0x7F 1 0x80))).getV 15 = 0 := by decide

/-- L2-40: the flag overwrites the result when x = F. -/
theorem test_addReg_vf : (after (prog 0x8FF4 (withV 15 0x80))).getV 15 = 1 := by decide

/-- L1-3. -/
theorem test_subReg :
    (after (prog 0x8215 (withVV 2 0x00 1 0x81))).getV 2 = 0x7F ∧ (after (prog 0x8215 (withVV 2 0x00 1 0x81))).getV 15 = 0 ∧
    (after (prog 0x8215 (withVV 2 0x81 1 0x81))).getV 15 = 1 := by decide

/-- L2-42: y = F reads the old VF. -/
theorem test_subReg_reads_vf :
    (after (prog 0x81F5 (withVV 1 1 15 1))).getV 1 = 0 ∧ (after (prog 0x81F5 (withVV 1 1 15 1))).getV 15 = 1 := by decide

/-- L2-46: the source is V2. -/
theorem test_shr_y :
    (after (prog 0x8126 (withVV 1 0xAA 2 0x03))).getV 1 = 0x01 ∧ (after (prog 0x8126 (withVV 1 0xAA 2 0x03))).getV 15 = 1 ∧
    (after (prog 0x8126 (withVV 1 0xAA 2 0x03))).getV 2 = 0x03 := by decide

/-- L2-47: the source is V1. -/
theorem test_shr_x :
    (after (prog 0x8126 (modeX (withVV 1 0xAA 2 0x03)))).getV 1 = 0x55 ∧
    (after (prog 0x8126 (modeX (withVV 1 0xAA 2 0x03)))).getV 15 = 0 := by decide

/-- L2-45. -/
theorem test_subn :
    (after (prog 0x8127 (withVV 1 0x05 2 0x03))).getV 1 = 0xFE ∧ (after (prog 0x8127 (withVV 1 0x05 2 0x03))).getV 15 = 0 := by
  decide

/-- L2-44: equal operands do not borrow. -/
theorem test_subn_equal : (after (prog 0x8127 (withVV 1 5 2 5))).getV 15 = 1 := by decide

/-- L2-49. -/
theorem test_shl8 : (after (prog 0x8418 (withV 1 0x81))).getV 4 = 0x02 ∧ (after (prog 0x8418 (withV 1 0x81))).getV 15 = 1 := by
  decide

/-- Program P3, step 6, in mode Y. -/
theorem test_shl_y : (after (prog 0x841E (withV 1 0x81))).getV 4 = 0x02 ∧ (after (prog 0x841E (withV 1 0x81))).getV 15 = 1 := by
  decide

/-- Program P3, step 6, in mode X: V4 shifts its own 0. -/
theorem test_shl_x :
    (after (prog 0x841E (modeX (withV 1 0x81)))).getV 4 = 0x00 ∧ (after (prog 0x841E (modeX (withV 1 0x81)))).getV 15 = 0 := by
  decide

/-- L2-51: whatever the byte, V5 = 0, and one byte is drawn. -/
theorem test_rnd_zero : (after (prog 0xC500)).getV 5 = 0 ∧ (after (prog 0xC500)).draws = 1 := by
  refine ⟨?_, rfl⟩
  show (Config.randByte 0 &&& 0x00 : Byte) = 0
  simp

/-- R144: V5 is the drawn byte under the mask. -/
theorem test_rnd_mask : (after (prog 0xC50F)).getV 5 = Config.randByte 0 &&& 0x0F := rfl

/-! ### Index register and memory -/

/-- L2-52. -/
theorem test_ldI : (after (prog 0xA300)).i = 0x300 := by decide

/-- L2-43. -/
theorem test_addI_wraps :
    (after (prog 0xF21E ((withV 2 0x20).setI 0xFFF0))).i = 0x0010 ∧
    (after (prog 0xF21E ((withV 2 0x20).setI 0xFFF0))).getV 15 = 1 := by decide

/-- L2-54: x = F adds the old VF; crossing 0xFFF sets no flag. -/
theorem test_addI_vf :
    (after (prog 0xFF1E ((withV 15 1).setI 0x0FFF))).i = 0x1000 ∧
    (after (prog 0xFF1E ((withV 15 1).setI 0x0FFF))).getV 15 = 0 := by decide

/-- L2-56: the full byte. -/
theorem test_ldF : (after (prog 0xF129 (withV 1 0xFF))).i = 0x04FB := by decide

/-- L1-7. -/
theorem test_ldB :
    (after (prog 0xF533 ((withV 5 157).setI 0x300))).mem.readBytes 0x300 4 = [1, 5, 7, 0] ∧
    (after (prog 0xF533 ((withV 5 157).setI 0x300))).i = 0x300 := by decide

/-- L2-59: no byte written. -/
theorem test_ldB_fault :
    after (prog 0xF233 ((withV 2 255).setI 0xFFE)) =
      { prog 0xF233 ((withV 2 255).setI 0xFFE) with halt := some ⟨.memRange 0x1000, 0x200, some 0xF233⟩ } := by decide

/-- L1-6. -/
theorem test_storeRegs :
    (after (prog 0xF255 (withV 0 1 ((withVV 1 2 2 3).setI 0x300)))).mem.readBytes 0x300 4 = [1, 2, 3, 0] ∧
    (after (prog 0xF255 (withV 0 1 ((withVV 1 2 2 3).setI 0x300)))).i = 0x303 := by decide

/-- L2-60: the bytes below 0x1000 stay, and I. -/
theorem test_storeRegs_fault :
    after (prog 0xF355 ((withVV 0 1 3 4).setI 0xFFD)) =
      { prog 0xF355 ((withVV 0 1 3 4).setI 0xFFD) with halt := some ⟨.memRange 0x1000, 0x200, some 0xF355⟩ } := by decide

/-- L2-61. -/
theorem test_loadRegs :
    (after (prog 0xFF65 (withMem 0x300 [1, 2, 3, 4, 5, 6, 7, 8, 9, 10, 11, 12, 13, 14, 15, 16] (State.reset.setI 0x300)))).v.toList =
      [1, 2, 3, 4, 5, 6, 7, 8, 9, 10, 11, 12, 13, 14, 15, 16] ∧
    (after (prog 0xFF65 (withMem 0x300 [1, 2, 3, 4, 5, 6, 7, 8, 9, 10, 11, 12, 13, 14, 15, 16] (State.reset.setI 0x300)))).i =
      0x310 := by decide

/-- R176: V2 on keep their values when x = 1. -/
theorem test_loadRegs_partial :
    (after (prog 0xF165 (withV 2 9 (withMem 0x300 [1, 2, 3] (State.reset.setI 0x300))))).v.toList.take 4 = [1, 2, 9, 0] := by decide

/-! ### Framebuffer -/

/-- L2-70. -/
theorem test_cls :
    (after (prog 0x00E0 (withV 15 7 { State.reset with fb := toggleCell State.reset.fb (31, 63) }))).fb = State.reset.fb ∧
    (after (prog 0x00E0 (withV 15 7 { State.reset with fb := toggleCell State.reset.fb (31, 63) }))).getV 15 = 7 := by decide

/-- L2-66: (0, 0) collides and goes off, (1, 0) goes on; L1-5 and P4: the columns wrap within the row, the rows to row 0. -/
theorem test_drw :
    (let t := after (prog 0xD121 (withMem 0x300 [0xC0] ({ State.reset with fb := toggleCell State.reset.fb (0, 0) }.setI 0x300)))
     cellOn t.fb 0 0 = false ∧ cellOn t.fb 0 1 = true ∧ t.getV 15 = 1) ∧
    (let t := after (prog 0xD122 (withMem 0x300 [0xFF, 0x81] ((withVV 1 60 2 31).setI 0x300)))
     cellOn t.fb 31 60 = true ∧ cellOn t.fb 31 3 = true ∧ cellOn t.fb 31 4 = false ∧ cellOn t.fb 0 60 = true ∧
       cellOn t.fb 0 3 = true ∧ cellOn t.fb 0 2 = false ∧ t.getV 15 = 0) := by decide

/-- L2-67: with no row there is no access and no range check; L2-69: a row beyond 0xFFF changes no cell. -/
theorem test_drw_range :
    (after (prog 0xD000 ((withV 15 1).setI 0x2000))).halt = none ∧ (after (prog 0xD000 ((withV 15 1).setI 0x2000))).getV 15 = 0 ∧
    after (prog 0xD002 (State.reset.setI 0xFFF)) =
      { prog 0xD002 (State.reset.setI 0xFFF) with halt := some ⟨.memRange 0x1000, 0x200, some 0xD002⟩ } := by decide

/-! ### Keys and timers -/

/-- L2-71, L2-72. -/
theorem test_skp :
    (after (prog 0xE29E ((withV 2 5).setKey 5 true))).pc = 0x204 ∧ (after (prog 0xE29E (withV 2 5))).pc = 0x202 := by decide

/-- L2-74: code 6, extra 0x10. -/
theorem test_skp_fault :
    (after (prog 0xE29E (withV 2 0x10))).halt = some ⟨.keyRange 0x10, 0x200, some 0xE29E⟩ ∧
    (FaultRecord.mk (.keyRange 0x10) 0x200 (some 0xE29E)).code = 6 ∧
    (FaultRecord.mk (.keyRange 0x10) 0x200 (some 0xE29E)).extra = some 16 := by decide

/-- L2-73, and by R221 its other side. -/
theorem test_sknp :
    (after (prog 0xE2A1 (withV 2 5))).pc = 0x204 ∧ (after (prog 0xE2A1 ((withV 2 5).setKey 5 true))).pc = 0x202 := by decide

/-- L2-76. -/
theorem test_ldVxDt : (after (prog 0xF307 (State.reset.setDt 0x3C))).getV 3 = 0x3C := by decide

/-- L1-8, L2-75: the least pressed key. -/
theorem test_ldVxK :
    (after (prog 0xF40A ((State.reset.setKey 9 true).setKey 3 true))).getV 4 = 3 ∧
    (after (prog 0xFF0A (State.reset.setKey 15 true))).getV 15 = 15 := by decide

/-- L1-8: the stall changes nothing. -/
theorem test_ldVxK_stall : after (prog 0xF40A) = prog 0xF40A := by decide

/-- L2-77. -/
theorem test_ldDtVx : (after (prog 0xF315 (withV 3 0x3C))).dt = 0x3C ∧ (after (prog 0xF315 (withV 3 0x3C))).st = 0 := by decide

/-- L2-77. -/
theorem test_ldStVx : (after (prog 0xF318 (withV 3 0x3C))).st = 0x3C ∧ (after (prog 0xF318 (withV 3 0x3C))).dt = 0 := by decide

/-! ### Host operations -/

/-- L2-78. -/
theorem test_tickDelay : (State.reset.setDt 1).tickDelay.dt = 0 ∧ (State.reset.setDt 1).tickDelay.tickDelay.dt = 0 := by decide

/-- L2-79. -/
theorem test_soundTick :
    (State.reset.setSt 1).soundTick.1 = true ∧ (State.reset.setSt 1).soundTick.2.st = 0 ∧
    (State.reset.setSt 1).soundTick.2.soundTick.1 = false := by decide

/-- L2-80. -/
theorem test_tickSound :
    (State.reset.setSt 2).tickSound.soundTick.1 = true ∧ (State.reset.setSt 2).tickSound.soundTick.2.st = 0 := by decide

/-- L2-81. -/
theorem test_setKey_ignored : State.reset.setKey 16 true = State.reset ∧ (State.reset.setKey 15 true).keyPressed 15 = true := by
  decide

/-- L2-82. -/
theorem test_halted_step :
    after (after (prog 0x0123 (State.reset.setDt 3))) = after (prog 0x0123 (State.reset.setDt 3)) ∧
    (after (prog 0x0123 (State.reset.setDt 3))).tickDelay.dt = 2 := by decide

/-- R297: refused outside the screen. -/
theorem test_pixel :
    State.reset.pixel 63 31 = .ok false ∧ State.reset.pixel 64 0 = .error (.pixelOutside 64 0) ∧
    State.reset.pixel 0 32 = .error (.pixelOutside 0 32) := by decide

/-- R280: an image of 3585 bytes gives no state, one of 3584 gives one. -/
theorem test_construct_length (fill : Byte) (font : Vector Byte 80) :
    State.construct defaultParams fill font (List.replicate 3585 0) = none ∧
    (State.construct defaultParams fill font (List.replicate 3584 0)).isSome = true := by
  constructor
  · exact if_pos (by rw [List.length_replicate]; decide)
  · rw [State.construct, if_neg (by rw [List.length_replicate]; decide)]
    rfl

/-- Program P5: an image of two bytes stands at 0x200, and 0x202 holds MEM_FILL. -/
theorem test_construct_bytes (fill : Byte) (font : Vector Byte 80) :
    (State.construct defaultParams fill font [0x22, 0x00]).map (fun s => s.mem.readBytes 0x200 3) = some [0x22, 0x00, fill] := by
  have hw := wf_initialBytes fill font
  have h0 := Memory.read_writeBytes_inside (a := 0x200) (k := 0) (bs := [0x22, 0x00]) hw (by decide) (by decide)
  have h1 := Memory.read_writeBytes_inside (a := 0x200) (k := 1) (bs := [0x22, 0x00]) hw (by decide) (by decide)
  have h2 := Memory.read_writeBytes_outside (m := Memory.writeBytes [] 0 (initialBytes fill font)) (a := 0x200) (b := 0x202)
    (bs := [0x22, 0x00]) (by decide)
  rw [read_initialBytes fill font (by decide), getElem_initialBytes_fill fill font (by decide) (by decide)] at h2
  rw [State.construct, if_neg (by decide)]
  show some [Memory.read _ (0x200 + 0), Memory.read _ (0x200 + 1), Memory.read _ 0x202] = _
  rw [h0, h1, h2]
  rfl

/-- R265: a self-jump is a good end, a fault a bad one, a wait for a key neither. -/
theorem test_ends :
    (prog 0x1200).endsWell = true ∧ (prog 0x1202).endsWell = false ∧ (after (prog 0x0123)).endsBadly = true ∧
    (prog 0xF40A).waitsForKey = true ∧ (prog 0xF40A).endsWell = false := by decide

/-! ### Witnesses: a concrete state and operands that meet the hypotheses of each statement, at the ends of their ranges -/

theorem test_witness_ConstructLoadsFontAndImage :
    3584 < (List.replicate 3585 (0 : Byte)).length ∧ (List.replicate 3584 (0 : Byte)).length ≤ 3584 ∧
    0 < [(0x12 : Byte)].length ∧ 79 < 80 ∧ (80 ≤ 0x1FF ∧ 0x1FF < 0x200) ∧
    (80 ≤ 0x201 ∧ 0x200 + [(0x12 : Byte)].length ≤ 0x201 ∧ 0x201 < 0x1000) ∧
    (0x200 + [(0x12 : Byte)].length ≤ 0xFFF ∧ 0xFFF < 0x1000) := by
  simp only [List.length_replicate]
  decide

theorem test_witness_ConstructedStateMeetsInvariant (font : Vector Byte 80) :
    ∃ s, State.construct defaultParams 0xAA font [0x12, 0x00] = some s := ⟨_, rfl⟩

theorem test_witness_DecodeOfEncodedBytes :
    (Instr.shl8 15 0).wellFormed .shl = true ∧ (Instr.drw 15 0 15).wellFormed .unknown = true := by decide

theorem test_witness_EncodeOfDecodedWord :
    decodeWord .shl 0x8F08 = .ok (.shl8 15 0) ∧ decodeWord .unknown 0xFF65 = .ok (.loadRegs 15) := by decide

theorem test_witness_DecodesExactlyTheTableRows : ∀ i, decodeWord .unknown 0x8F08 ≠ .ok i := by
  intro i h
  cases h

theorem test_witness_StepRunsDecodedInstruction :
    (prog 0x1200 (State.reset.setPc 0xFFE)).halt = none ∧ (prog 0x1200 (State.reset.setPc 0xFFE)).pc.toNat ≤ 0xFFE ∧
    decodeBytes .shl [(prog 0x1200 (State.reset.setPc 0xFFE)).mem.read 0xFFE, (prog 0x1200 (State.reset.setPc 0xFFE)).mem.read 0xFFF] =
      .ok (.jp 0x200, []) := by decide

theorem test_witness_FetchOutOfRangeFaults :
    (State.reset.setPc 0xFFF).halt = none ∧ 0xFFE < (State.reset.setPc 0xFFF).pc.toNat ∧
    0xFFE < (State.reset.setPc 0xFFFF).pc.toNat := by decide

theorem test_witness_UnknownOpcodeFaults :
    (prog 0x5121 (State.reset.setPc 0xFFE)).halt = none ∧ (prog 0x5121 (State.reset.setPc 0xFFE)).pc.toNat ≤ 0xFFE ∧
    (prog 0x5121 (State.reset.setPc 0xFFE)).mem.read 0xFFE = 0x51 ∧ (prog 0x5121 (State.reset.setPc 0xFFE)).mem.read 0xFFF = 0x21 ∧
    ∀ r ∈ opcodeRows .shl, r.selects ((0x51 : Byte) ++ (0x21 : Byte)) = false := by decide

theorem test_witness_HaltedCoreIsStuck :
    (State.reset.raise .fetchRange none).halt = some ⟨.fetchRange, 0x200, none⟩ := by decide

/-- A fetch fault and a fault of an instruction. -/
theorem test_witness_FaultCommitsNothing :
    (∃ t, State.halt (State.reset.setPc 0xFFF) = none ∧ step (State.reset.setPc 0xFFF) = .next t ∧
      t.halt = some ⟨.fetchRange, 0xFFF, none⟩) ∧
    (∃ t, (prog 0xF055 (State.reset.setI 0x1000)).halt = none ∧ step (prog 0xF055 (State.reset.setI 0x1000)) = .next t ∧
      t.halt = some ⟨.memRange 0x1000, 0x200, some 0xF055⟩) :=
  ⟨⟨_, rfl, rfl, by decide⟩, ⟨_, by decide, rfl, by decide⟩⟩

theorem test_witness_FaultsComeFromTheirInstructions :
    ∃ t, State.reset.halt = none ∧ exec (.sknp 3) (withV 3 16) = .next t ∧ t.halt = some ⟨.keyRange 16, 0x200, some 0xE3A1⟩ :=
  ⟨_, rfl, rfl, by decide⟩

theorem test_witness_NeverFaultingInstructionsComplete : ∀ f : Fault, ¬ mayRaise (.addI 15) f := by
  intro f h
  cases f <;> simp [mayRaise] at h

/-- An access below and an access above 0xFFF. -/
theorem test_witness_MemRangeRecordsLowestAddress :
    (∃ t, exec (.storeRegs 1) (State.reset.setI 0xFFF) = .next t ∧ t.halt = some ⟨.memRange 0x1000, 0x200, some 0xF155⟩) ∧
    accesses (.storeRegs 1) (State.reset.setI 0xFFF) 0xFFF ∧ accesses (.storeRegs 1) (State.reset.setI 0xFFF) 0x1000 :=
  ⟨⟨_, rfl, by decide⟩, ⟨0, by decide⟩, ⟨1, by decide⟩⟩

theorem test_witness_StateWrittenOnlyByItsInstructions :
    (∃ t, exec (.rnd 1 0xFF) State.reset = .next t) ∧ (∃ t, exec (.ldB 1) State.reset = .next t) :=
  ⟨⟨_, rfl⟩, ⟨_, rfl⟩⟩

theorem test_witness_RegistersWrittenOnlyAsListed :
    (∃ t, exec (.addReg 1 2) State.reset = .next t ∧ State.reset.halt = none ∧ t.halt = none) ∧
    writesFlag (.addReg 1 2) = true ∧ ¬ writesReg (.addReg 1 2) 2 ∧ ¬ (writesFlag (.addReg 1 2) = true ∧ (2 : Reg) = regF) :=
  ⟨⟨_, rfl, rfl, rfl⟩, rfl, by simp [writesReg], by decide⟩

theorem test_witness_PcAfterEachInstruction :
    ∃ t, State.reset.halt = none ∧ exec (.ldVxK 3) State.reset = .next t ∧ t.halt = none := ⟨_, rfl, rfl, by decide⟩

theorem test_witness_NoInstructionReadsSoundTimer : ∃ t, exec (.ldVxDt 3) (State.reset.setSt 9) = .next t := ⟨_, rfl⟩

theorem test_witness_StepKeepsInvariant : State.reset.Inv ∧ ∃ t, step State.reset = .next t := ⟨test_reset_invariant, _, rfl⟩

theorem test_witness_AnyScheduleKeepsInvariant :
    State.reset.Inv ∧ ∃ t, State.moves [.tickDelay, .execute, .setKey 3 true, .soundTick] State.reset = .next t :=
  ⟨test_reset_invariant, _, rfl⟩

theorem test_witness_AnyScheduleKeepsParametersAndHalt :
    ∃ t, (State.reset.raise .fetchRange none).halt = some ⟨.fetchRange, 0x200, none⟩ ∧
      State.moves [.execute, .tickSound] (State.reset.raise .fetchRange none) = .next t := ⟨_, rfl, rfl⟩

/-- One move for each of the clauses; a query inside the screen moves too. -/
theorem test_witness_HostMovesWriteOnlyTimersAndKeys :
    (∃ t, Move.setKey 16 true ≠ .execute ∧ State.reset.move (.setKey 16 true) = .next t) ∧
    (∃ t, Move.tickDelay ≠ .execute ∧ State.reset.move .tickDelay = .next t) ∧
    (∃ t, Move.pixel 63 31 ≠ .execute ∧ State.reset.move (.pixel 63 31) = .next t) :=
  ⟨⟨_, by decide, rfl⟩, ⟨_, by decide, rfl⟩, ⟨_, by decide, rfl⟩⟩

theorem test_witness_CallPushesReturnAddress :
    (withStack 16 0).sp.val = 16 ∧ (withStack 0 0).sp.val = (0 : Fin 16).val ∧ (withStack 15 0).sp.val = (15 : Fin 16).val := by
  decide

theorem test_witness_ReturnPopsPc :
    (withStack 0 0).sp.val = 0 ∧ (withStack 1 0).sp.val = (0 : Fin 16).val + 1 ∧ (withStack 16 0).sp.val = (15 : Fin 16).val + 1 := by
  decide

theorem test_witness_ReturnAfterCallResumes :
    ∃ t, (withStack 15 0x300).sp.val < 16 ∧ exec (.call 0xFFF) (withStack 15 0x300) = .next t := ⟨_, by decide, rfl⟩

/-- The last base that fits and the first that does not. -/
theorem test_witness_BcdStoresThreeDigits :
    (State.reset.setI 0xFFE).base + 2 > 0xFFF ∧
    ((State.reset.setI 0xFFD).mem.wf = true ∧ (State.reset.setI 0xFFD).base + 2 ≤ 0xFFF) := by decide

theorem test_witness_BlockStoreWritesAndAdvances :
    (State.reset.setI 0xFF1).base + (15 : Reg).val > 0xFFF ∧
    ((State.reset.setI 0xFF0).mem.wf = true ∧ (State.reset.setI 0xFF0).base + (15 : Reg).val ≤ 0xFFF) := by decide

theorem test_witness_BlockLoadReadsAndAdvances :
    (State.reset.setI 0x1000).base + (0 : Reg).val > 0xFFF ∧ (State.reset.setI 0xFFF).base + (0 : Reg).val ≤ 0xFFF := by decide

theorem test_witness_BlockLoadAfterStoreRestores :
    ∃ t u : State, (State.reset.setI 0xFFE).mem.wf = true ∧ (State.reset.setI 0xFFE).base + (1 : Reg).val ≤ 0xFFF ∧
      exec (.storeRegs 1) (State.reset.setI 0xFFE) = .next t ∧ u.mem = t.mem ∧ u.i = (State.reset.setI 0xFFE).i :=
  ⟨_, { State.reset with mem := _, i := _ }, by decide, by decide, rfl, rfl, rfl⟩

/-- V0 and V1 hold 0x1234, JP 0x234, and I points at the next instruction. -/
theorem test_witness_StoredInstructionIsExecutedNext :
    ∃ t, ((withVV 0 0x12 1 0x34).setI 0x202).halt = none ∧ ((withVV 0 0x12 1 0x34).setI 0x202).mem.wf = true ∧
      1 ≤ (1 : Reg).val ∧ ((withVV 0 0x12 1 0x34).setI 0x202).base + (1 : Reg).val ≤ 0xFFF ∧
      ((withVV 0 0x12 1 0x34).setI 0x202).pc.toNat + 2 = ((withVV 0 0x12 1 0x34).setI 0x202).base ∧
      ((withVV 0 0x12 1 0x34).setI 0x202).getV 0 ++ ((withVV 0 0x12 1 0x34).setI 0x202).getV 1 = encode (.jp 0x234) ∧
      (Instr.jp 0x234).wellFormed .shl = true ∧ exec (.storeRegs 1) ((withVV 0 0x12 1 0x34).setI 0x202) = .next t :=
  ⟨_, by decide, by decide, by decide, by decide, by decide, by decide, by decide, rfl⟩

/-- No row at any I, and the last base that fits for n = 1 and n = 15. -/
theorem test_witness_DrawSpriteXorsCells :
    (0 : Nibble).val = 0 ∧ (State.reset.setI 0xFFF).base + (1 : Nibble).val ≤ 0x1000 ∧
    (State.reset.setI 0xFF1).base + (15 : Nibble).val ≤ 0x1000 := by decide

/-- A sprite pixel of value 1 on a cell that is on, and on one that is off; a cell under no sprite pixel. -/
theorem test_witness_DrawSpriteXorsCells_collision :
    Collides { State.reset with fb := toggleCell State.reset.fb (0, 0) } 0 0 1 ∧ ¬ Collides State.reset 0 0 1 ∧
    (∀ k c : Nat, k < (1 : Nibble).val → c < 8 → ¬ landsOn State.reset 0 0 k c 31 63) := by
  refine ⟨⟨0, 0, 0, 0, by decide, by decide, ⟨by decide, by decide⟩, by decide, by decide⟩, ?_, ?_⟩
  · rintro ⟨_, _, r, c, _, _, _, _, h⟩
    have : ∀ r c, cellOn State.reset.fb r c = false := cellOn_clearFb
    simp [this] at h
  · rintro k c hk hc ⟨h, _⟩
    have : k = 0 := by omega
    subst this
    exact absurd h (by decide)

theorem test_witness_DrawOutOfRangeFaults :
    0 < (1 : Nibble).val ∧ (State.reset.setI 0x1000).base + (1 : Nibble).val - 1 > 0xFFF ∧
    (State.reset.setI 0xFF2).base + (15 : Nibble).val - 1 > 0xFFF := by decide

/-- Two draws of one row of glyph 0 at the origin. -/
theorem test_witness_DrawingTwiceRestores :
    State.reset.halt = none ∧ exec (.drw 0 0 1) State.reset = .next (execTo (.drw 0 0 1) State.reset) ∧
    (execTo (.drw 0 0 1) State.reset).halt = none ∧ (execTo (.drw 0 0 1) State.reset).getV 0 = State.reset.getV 0 ∧
    ∃ u, exec (.drw 0 0 1) (execTo (.drw 0 0 1) State.reset) = .next u :=
  ⟨rfl, rfl, by decide, by decide, _, rfl⟩

theorem test_witness_SkipOnKey :
    ((withV 3 15).getV 3).toNat = (15 : Fin 16).val ∧ ((withV 3 0).getV 3).toNat = (0 : Fin 16).val ∧
    15 < ((withV 3 16).getV 3).toNat := by decide

theorem test_witness_WaitForKeyTakesLeast :
    ((State.reset.setKey 15 true).setKey 9 true).key[(9 : Fin 16)] = true ∧
    (∀ j : Fin 16, j.val < 9 → ((State.reset.setKey 15 true).setKey 9 true).key[j] = false) ∧
    (∀ j : Fin 16, j.val < 15 → (State.reset.setKey 15 true).key[j] = false) := by decide

theorem test_witness_WaitForKeyStalls : (prog 0xF30A).waitsForKey = true := by decide

theorem test_witness_SetKeyIsBoundsChecked : 15 < 16 ∧ (15 : Fin 16).val = 15 ∧ (0 : Fin 16).val = 0 := by decide

theorem test_witness_PixelQueryReadsOneCell :
    (31 : Fin 32).val = 31 ∧ (63 : Fin 64).val = 63 ∧ (63 < 64 ∨ 31 < 0) ∧ (63 < 0 ∨ 31 < 32) := by decide

theorem test_witness_EndStatesAreFixedPoints :
    (prog 0x1200).endsWell = true ∧ (State.reset.raise .fetchRange none).endsBadly = true := by decide

end Sys2Proof.Tests
end

section
/-! PROOFS, part 1. What executing an instruction can change: the frame of `exec`, the registers it writes, the PC it leaves.
Later proofs about the state cite these three instead of walking through the meanings again. -/

namespace Sys2Proof.Machine

variable {i : Instr} {s t : State}

/-- The state `s` with PC, HALT and the pieces that instruction `i` may write taken from `t`, every other piece as it is in
`s` (spec/10_state.md R35, R42 to R45, R48; spec/20_memory.md R61). -/
def State.patch (s : State) (i : Instr) (t : State) : State :=
  match i with
  | .cls => { s with pc := t.pc, halt := t.halt, fb := t.fb }
  | .ret => { s with pc := t.pc, halt := t.halt, sp := t.sp }
  | .call _ => { s with pc := t.pc, halt := t.halt, sp := t.sp, stack := t.stack }
  | .ldImm _ _ | .addImm _ _ | .ldReg _ _ | .orReg _ _ | .andReg _ _ | .xorReg _ _ | .addReg _ _ | .subReg _ _
  | .shr _ _ | .subn _ _ | .shl8 _ _ | .shl _ _ | .ldVxDt _ | .ldVxK _ =>
    { s with pc := t.pc, halt := t.halt, v := t.v }
  | .rnd _ _ => { s with pc := t.pc, halt := t.halt, v := t.v, draws := t.draws }
  | .drw _ _ _ => { s with pc := t.pc, halt := t.halt, v := t.v, fb := t.fb }
  | .ldI _ | .ldF _ => { s with pc := t.pc, halt := t.halt, i := t.i }
  | .addI _ | .loadRegs _ => { s with pc := t.pc, halt := t.halt, v := t.v, i := t.i }
  | .ldDtVx _ => { s with pc := t.pc, halt := t.halt, dt := t.dt }
  | .ldStVx _ => { s with pc := t.pc, halt := t.halt, st := t.st }
  | .ldB _ => { s with pc := t.pc, halt := t.halt, mem := t.mem }
  | .storeRegs _ => { s with pc := t.pc, halt := t.halt, mem := t.mem, i := t.i }
  | _ => { s with pc := t.pc, halt := t.halt }

/-- A skip writes PC only. -/
theorem State.advance_skipIf_eq (s : State) (c : Bool) :
    s.advance.skipIf c = { s with pc := (s.advance.skipIf c).pc, halt := (s.advance.skipIf c).halt } := by
  cases c <;> rfl

/-- Every instruction stays within its frame, whether it completes or faults. -/
theorem exec_frame (h : exec i s = .next t) : t = s.patch i t := by
  cases i with
  | ret => obtain ⟨j, -, rfl⟩ | ⟨-, rfl⟩ := exec_ret_cases h <;> rfl
  | call nnn => obtain ⟨hs, rfl⟩ | ⟨-, rfl⟩ := exec_call_cases h <;> rfl
  | drw x y n => obtain ⟨-, rfl⟩ | ⟨-, rfl⟩ := exec_drw_cases h <;> rfl
  | ldVxK x => obtain ⟨k, -, rfl⟩ | ⟨-, rfl⟩ := exec_ldVxK_cases h <;> rfl
  | ldB x => obtain ⟨-, rfl⟩ | ⟨-, rfl⟩ := exec_ldB_cases h <;> rfl
  | storeRegs x => obtain ⟨-, rfl⟩ | ⟨-, rfl⟩ := exec_storeRegs_cases h <;> rfl
  | loadRegs x => obtain ⟨-, rfl⟩ | ⟨-, rfl⟩ := exec_loadRegs_cases h <;> rfl
  | skp x =>
    obtain ⟨k, -, rfl⟩ | ⟨-, rfl⟩ := exec_skp_cases h
    · exact State.advance_skipIf_eq s _
    · rfl
  | sknp x =>
    obtain ⟨k, -, rfl⟩ | ⟨-, rfl⟩ := exec_sknp_cases h
    · exact State.advance_skipIf_eq s _
    · rfl
  | seImm _ _ | sneImm _ _ | seReg _ _ | sneReg _ _ =>
    cases h
    exact State.advance_skipIf_eq s _
  | _ =>
    cases h
    rfl

/-! One field each: the instructions that may write it, read off the frame. -/

theorem exec_keeps_key (h : exec i s = .next t) : t.key = s.key := by
  cases i <;> exact (congrArg State.key (exec_frame h)).trans rfl

theorem exec_keeps_params (h : exec i s = .next t) : t.params = s.params := by
  cases i <;> exact (congrArg State.params (exec_frame h)).trans rfl

theorem exec_keeps_dt (h : exec i s = .next t) (hi : ∀ x, i ≠ .ldDtVx x) : t.dt = s.dt := by
  cases i with
  | ldDtVx x => exact absurd rfl (hi x)
  | _ => exact (congrArg State.dt (exec_frame h)).trans rfl

theorem exec_keeps_st (h : exec i s = .next t) (hi : ∀ x, i ≠ .ldStVx x) : t.st = s.st := by
  cases i with
  | ldStVx x => exact absurd rfl (hi x)
  | _ => exact (congrArg State.st (exec_frame h)).trans rfl

theorem exec_keeps_stack (h : exec i s = .next t) (hcall : ∀ nnn, i ≠ .call nnn) (hret : i ≠ .ret) : SameStack s t := by
  cases i with
  | call nnn => exact absurd rfl (hcall nnn)
  | ret => exact absurd rfl hret
  | _ => exact ⟨(congrArg State.sp (exec_frame h)).trans rfl, (congrArg State.stack (exec_frame h)).trans rfl⟩

theorem exec_keeps_fb (h : exec i s = .next t) (hcls : i ≠ .cls) (hdrw : ∀ x y n, i ≠ .drw x y n) : t.fb = s.fb := by
  cases i with
  | cls => exact absurd rfl hcls
  | drw x y n => exact absurd rfl (hdrw x y n)
  | _ => exact (congrArg State.fb (exec_frame h)).trans rfl

theorem exec_keeps_mem (h : exec i s = .next t) (hldB : ∀ x, i ≠ .ldB x) (hstore : ∀ x, i ≠ .storeRegs x) :
    t.mem = s.mem := by
  cases i with
  | ldB x => exact absurd rfl (hldB x)
  | storeRegs x => exact absurd rfl (hstore x)
  | _ => exact (congrArg State.mem (exec_frame h)).trans rfl

theorem exec_keeps_i (h : exec i s = .next t) (hldI : ∀ nnn, i ≠ .ldI nnn) (haddI : ∀ x, i ≠ .addI x)
    (hldF : ∀ x, i ≠ .ldF x) (hstore : ∀ x, i ≠ .storeRegs x) (hload : ∀ x, i ≠ .loadRegs x) : t.i = s.i := by
  cases i with
  | ldI nnn => exact absurd rfl (hldI nnn)
  | addI x => exact absurd rfl (haddI x)
  | ldF x => exact absurd rfl (hldF x)
  | storeRegs x => exact absurd rfl (hstore x)
  | loadRegs x => exact absurd rfl (hload x)
  | _ => exact (congrArg State.i (exec_frame h)).trans rfl

theorem exec_keeps_draws (h : exec i s = .next t) (hrnd : ∀ x kk, i ≠ .rnd x kk) : t.draws = s.draws := by
  cases i with
  | rnd x kk => exact absurd rfl (hrnd x kk)
  | _ => exact (congrArg State.draws (exec_frame h)).trans rfl

/-- Settles O18, one field at a time by the frame of `exec`. -/
theorem stateWrittenOnlyByItsInstructions : Obligations.StateWrittenOnlyByItsInstructions := by
  intro i s t h
  exact ⟨exec_keeps_key h, exec_keeps_params h, exec_keeps_dt h, exec_keeps_st h, exec_keeps_stack h, exec_keeps_fb h,
    fun hldB hstore a => by rw [exec_keeps_mem h hldB hstore], exec_keeps_i h, exec_keeps_draws h⟩

/-! ### Registers -/

/-- A flag byte is 0 or 1 (spec/10_state.md R32). -/
theorem flagByte_eq_zero_or_one (b : Bool) : flagByte b = 0 ∨ flagByte b = 1 := by
  cases b
  · exact .inl rfl
  · exact .inr rfl

theorem State.getV_setVFlag_ne {q x : Reg} (hF : q ≠ regF) (hx : q ≠ x) (r : Byte × Bool) :
    (s.setVFlag x r).getV q = s.getV q := by
  rw [State.setVFlag_getV, if_neg hF, if_neg hx]

/-- A register that is neither the destination nor a written flag is kept (spec/10_state.md R33). -/
theorem exec_keeps_getV (h : exec i s = .next t) {r : Reg} (hw : ¬ writesReg i r) (hf : ¬ (writesFlag i = true ∧ r = regF)) :
    t.getV r = s.getV r := by
  cases i with
  | ldImm | addImm | ldReg | orReg | andReg | xorReg | rnd | ldVxDt =>
    cases h
    exact State.getV_setV_ne _ hw _
  | addReg | subReg | shr | subn | shl8 | shl =>
    cases h
    exact State.getV_setVFlag_ne (fun hr => hf ⟨rfl, hr⟩) hw _
  | addI x =>
    cases h
    exact State.getV_setV_ne _ (fun hr => hf ⟨rfl, hr⟩) _
  | ldVxK x =>
    obtain ⟨k, -, rfl⟩ | ⟨-, rfl⟩ := exec_ldVxK_cases h
    · exact State.getV_setV_ne _ hw _
    · rfl
  | drw x y n =>
    obtain ⟨-, rfl⟩ | ⟨-, rfl⟩ := exec_drw_cases h
    · exact State.getV_setV_ne _ (fun hr => hf ⟨rfl, hr⟩) _
    · rfl
  | loadRegs x =>
    obtain ⟨-, rfl⟩ | ⟨-, rfl⟩ := exec_loadRegs_cases h
    · have hr : ¬ r.val < x.val + 1 := fun hlt => hw (Nat.lt_succ_iff.mp hlt)
      exact (getElem_loadFrom s.mem s.base (x.val + 1) s.v r.val r.isLt).trans (if_neg hr)
    · rfl
  | _ => exact (congrArg (State.getV · r) (exec_frame h)).trans rfl

/-- A flag instruction that completes leaves 0 or 1 in VF (spec/10_state.md R32). -/
theorem exec_flag (h : exec i s = .next t) (ht : t.halt = none) (hf : writesFlag i = true) :
    ∃ b, t.getV regF = flagByte b := by
  cases i with
  | addReg | subReg | shr | subn | shl8 | shl =>
    cases h
    exact ⟨_, (State.setVFlag_getV _ _ _ _).trans (if_pos rfl)⟩
  | addI x =>
    cases h
    exact ⟨_, State.getV_setV_self _ _ _⟩
  | drw x y n =>
    obtain ⟨-, rfl⟩ | ⟨-, rfl⟩ := exec_drw_cases h
    · exact ⟨_, State.getV_setV_self _ _ _⟩
    · cases ht
  | _ => cases hf

/-- Settles O19. -/
theorem registersWrittenOnlyAsListed : Obligations.RegistersWrittenOnlyAsListed := by
  intro i s t h
  refine ⟨fun r hw hf => exec_keeps_getV h hw hf, fun _ ht hf => ?_⟩
  obtain ⟨b, hb⟩ := exec_flag h ht hf
  rw [hb]
  exact flagByte_eq_zero_or_one b

/-! ### PC -/

@[simp] theorem addrImm_toNat (nnn : Addr12) : (addrImm nnn).toNat = nnn.toNat := by
  simp only [addrImm, BitVec.toNat_setWidth]
  omega

@[simp] theorem byteImm_toNat (b : Byte) : (byteImm b).toNat = b.toNat := by
  simp only [byteImm, BitVec.toNat_setWidth]
  omega

/-- The target of Bnnn never wraps (spec/40_control.md R109). -/
theorem addrImm_add_byteImm_toNat (nnn : Addr12) (b : Byte) :
    (addrImm nnn + byteImm b).toNat = nnn.toNat + b.toNat := by
  rw [BitVec.toNat_add, addrImm_toNat, byteImm_toNat]
  omega

/-- A skip on a condition, as `pcAfter` spells it. -/
theorem State.skip_pc_decide (s : State) (p : Prop) [Decidable p] :
    (s.advance.skipIf (decide p)).pc = if p then s.pc + 4 else s.pc + 2 := by
  rw [State.skip_pc]
  simp only [decide_eq_true_eq]

/-- A skip on the negation of a condition. -/
theorem State.skip_pc_decide_not (s : State) (p : Prop) [Decidable p] :
    (s.advance.skipIf (decide ¬p)).pc = if p then s.pc + 2 else s.pc + 4 := by
  rw [State.skip_pc_decide]
  exact ite_not p _ _

/-- Every instruction faults and leaves all but HALT, or leaves in PC what spec/10_state.md R38 lists. -/
theorem exec_pc_cases (h : exec i s = .next t) :
    (∃ f, t = s.raise f (some (encode i))) ∨ pcAfter i s t := by
  cases i with
  | ret =>
    obtain ⟨j, hj, rfl⟩ | ⟨-, rfl⟩ := exec_ret_cases h
    · exact .inr ⟨j, hj, rfl⟩
    · exact .inl ⟨_, rfl⟩
  | call nnn =>
    obtain ⟨-, rfl⟩ | ⟨-, rfl⟩ := exec_call_cases h
    · exact .inr (addrImm_toNat nnn)
    · exact .inl ⟨_, rfl⟩
  | jp nnn =>
    cases h
    exact .inr (addrImm_toNat nnn)
  | jpV0 nnn =>
    cases h
    exact .inr (addrImm_add_byteImm_toNat nnn _)
  | seImm | seReg =>
    cases h
    exact .inr (State.skip_pc_decide s _)
  | sneImm | sneReg =>
    cases h
    exact .inr (State.skip_pc_decide_not s _)
  | skp x =>
    obtain ⟨k, hk, rfl⟩ | ⟨-, rfl⟩ := exec_skp_cases h
    · exact .inr ⟨k, hk, State.skip_pc s _⟩
    · exact .inl ⟨_, rfl⟩
  | sknp x =>
    obtain ⟨k, hk, rfl⟩ | ⟨-, rfl⟩ := exec_sknp_cases h
    · refine .inr ⟨k, hk, ?_⟩
      rw [State.skip_pc]
      cases s.keyPressed k <;> rfl
    · exact .inl ⟨_, rfl⟩
  | ldVxK x =>
    obtain ⟨k, hk, rfl⟩ | ⟨hnone, rfl⟩ := exec_ldVxK_cases h
    · have hpressed := (State.leastPressed_some.mp hk).1
      exact .inr ⟨fun hup => absurd (hup k) (by simp [hpressed]), fun _ => rfl⟩
    · have hup := State.leastPressed_none.mp hnone
      exact .inr ⟨fun _ => rfl, fun ⟨k, hpressed⟩ => absurd hpressed (by simp [hup k])⟩
  | drw x y n =>
    obtain ⟨-, rfl⟩ | ⟨-, rfl⟩ := exec_drw_cases h
    · exact .inr rfl
    · exact .inl ⟨_, rfl⟩
  | ldB x =>
    obtain ⟨-, rfl⟩ | ⟨-, rfl⟩ := exec_ldB_cases h
    · exact .inr rfl
    · exact .inl ⟨_, rfl⟩
  | storeRegs x =>
    obtain ⟨-, rfl⟩ | ⟨-, rfl⟩ := exec_storeRegs_cases h
    · exact .inr rfl
    · exact .inl ⟨_, rfl⟩
  | loadRegs x =>
    obtain ⟨-, rfl⟩ | ⟨-, rfl⟩ := exec_loadRegs_cases h
    · exact .inr rfl
    · exact .inl ⟨_, rfl⟩
  | _ =>
    cases h
    exact .inr rfl

/-- Settles O20: an instruction that leaves HALT none has not faulted. -/
theorem pcAfterEachInstruction : Obligations.PcAfterEachInstruction := by
  intro i s t _ h ht
  obtain ⟨f, rfl⟩ | hpc := exec_pc_cases h
  · cases ht
  · exact hpc

end Sys2Proof.Machine
end

section
/-! PROOFS, part 2. The invariant `State.Inv`: construction gives it and every step keeps it. -/

namespace Sys2Proof.Machine

variable {i : Instr} {s t : State}

/-! ### Construction -/

/-- A state at the entry point with an empty stack meets the invariant once its memory is canonical. -/
theorem State.inv_of_entry (hmem : s.mem.wf = true) (hpc : s.pc = BitVec.ofNat 16 progStart) (hsp : s.sp = 0) : s.Inv := by
  refine ⟨hmem, ?_, fun j hj => ?_⟩
  · rw [hpc]
    decide
  · rw [hsp] at hj
    exact absurd hj (Nat.not_lt_zero _)

/-- Settles O3. -/
theorem constructedStateMeetsInvariant : Obligations.ConstructedStateMeetsInvariant := by
  refine ⟨State.inv_of_entry State.reset_wf rfl rfl, fun p fill font image s h => ?_⟩
  unfold State.construct at h
  split at h
  · cases h
  · rename_i hlen
    cases h
    have himage : progStart + image.length ≤ 0x1000 := by
      simp only [maxImage, progStart] at hlen ⊢
      omega
    exact State.inv_of_entry (Memory.wf_writeBytes (wf_initialBytes fill font) himage) rfl rfl

/-! ### The step -/

/-- A fault keeps the invariant, which does not speak of HALT. -/
theorem State.Inv.raise (hs : s.Inv) (f : Fault) (w : Option Word) : (s.raise f w).Inv := hs

/-- Only Fx33 and Fx55 store, and both check their range first (spec/20_memory.md R64). -/
theorem exec_keeps_mem_wf (h : exec i s = .next t) (hs : s.mem.wf = true) : t.mem.wf = true := by
  cases i with
  | ldB x =>
    obtain ⟨hr, rfl⟩ | ⟨-, rfl⟩ := exec_ldB_cases h
    · exact Memory.wf_writeBytes hs hr
    · exact hs
  | storeRegs x =>
    obtain ⟨hr, rfl⟩ | ⟨-, rfl⟩ := exec_storeRegs_cases h
    · exact Memory.wf_writeBytes hs (by rwa [State.length_regsTo])
    · exact hs
  | _ =>
    rw [exec_keeps_mem h nofun nofun]
    exact hs

/-- The largest PC an instruction fetched at 0xFFE or below leaves is the target 0xFFF + 0xFF of Bnnn
(spec/10_state.md R39). -/
theorem pcAfter_le (h : pcAfter i s t) (hs : s.Inv) (hpc : s.pc.toNat ≤ 0xFFE) : t.pc.toNat ≤ 0x10FE := by
  obtain ⟨-, -, hstack⟩ := hs
  have h2 : (s.pc + 2).toNat ≤ 0x10FE := by bv_omega
  have h4 : (s.pc + 4).toNat ≤ 0x10FE := by bv_omega
  cases i with
  | jp nnn | call nnn =>
    have heq : t.pc.toNat = nnn.toNat := h
    omega
  | jpV0 nnn =>
    have heq : t.pc.toNat = nnn.toNat + (s.getV 0).toNat := h
    omega
  | ret =>
    obtain ⟨j, hj, heq⟩ := h
    have := (hstack j (by omega)).2
    rw [heq]
    omega
  | seImm | seReg | sneImm | sneReg =>
    rw [show t.pc = ite _ _ _ from h]
    split <;> assumption
  | skp | sknp =>
    obtain ⟨k, -, heq⟩ := h
    rw [heq]
    split <;> assumption
  | ldVxK x =>
    obtain ⟨hup, hdown⟩ := h
    by_cases hk : ∃ k : Fin 16, s.keyPressed k = true
    · rw [hdown hk]
      exact h2
    · rw [hup fun k => by simpa using not_exists.mp hk k]
      omega
  | _ =>
    rw [show t.pc = s.pc + 2 from h]
    exact h2

/-- What 2nnn pushes is in 0x002-0x1000, and 00EE only frees a slot (spec/40_control.md R102, R104). -/
theorem exec_stack_bounds (h : exec i s = .next t) (hs : s.Inv) (hpc : s.pc.toNat ≤ 0xFFE) :
    ∀ j : Fin 16, j.val < t.sp.val → 2 ≤ t.stack[j].toNat ∧ t.stack[j].toNat ≤ 0x1000 := by
  obtain ⟨-, -, hstack⟩ := hs
  cases i with
  | call nnn =>
    obtain ⟨hsp, rfl⟩ | ⟨-, rfl⟩ := exec_call_cases h
    · intro j hj
      by_cases hjs : s.sp.val = j.val
      · have hslot : (s.stack.set s.sp.val (s.pc + 2) hsp)[j] = s.pc + 2 := by simp [hjs]
        simp only [hslot]
        bv_omega
      · have hslot : (s.stack.set s.sp.val (s.pc + 2) hsp)[j] = s.stack[j] := by simp [hjs]
        simp only [hslot]
        simp only at hj
        exact hstack j (by omega)
    · exact hstack
  | ret =>
    obtain ⟨k, hk, rfl⟩ | ⟨-, rfl⟩ := exec_ret_cases h
    · intro j hj
      simp only at hj
      exact hstack j (by omega)
    · exact hstack
  | _ =>
    obtain ⟨hsp, hslots⟩ := exec_keeps_stack h nofun nofun
    rw [hsp, hslots]
    exact hstack

/-- An instruction fetched in range keeps the invariant. -/
theorem exec_keeps_inv (h : exec i s = .next t) (hs : s.Inv) (hpc : s.pc.toNat ≤ 0xFFE) : t.Inv := by
  obtain ⟨f, rfl⟩ | hafter := exec_pc_cases h
  · exact hs.raise f _
  · have ⟨hmem, _, _⟩ := hs
    exact ⟨exec_keeps_mem_wf h hmem, pcAfter_le hafter hs hpc, exec_stack_bounds h hs hpc⟩

/-- An instruction is issued only at an address from which a word can be fetched (spec/30_encoding.md R80). -/
theorem State.pc_le_of_issue (h : s.issue = .ok i) : s.pc.toNat ≤ 0xFFE := by
  obtain ⟨-, hissue⟩ | ⟨hpc, -⟩ := s.issue_cases
  · rw [hissue] at h
    cases h
  · exact hpc

/-- Settles O22: a halted or faulting step changes at most HALT, and an issued instruction keeps each clause. -/
theorem stepKeepsInvariant : Obligations.StepKeepsInvariant := by
  intro s t hs h
  obtain ⟨-, hstep⟩ | ⟨-, i, hissue, hstep⟩ | ⟨-, f, w, -, hstep⟩ := step_cases s
  · cases hstep.symm.trans h
    exact hs
  · exact exec_keeps_inv (hstep.symm.trans h) hs (State.pc_le_of_issue hissue)
  · cases hstep.symm.trans h
    exact hs.raise f w

end Sys2Proof.Machine
end

section
/-! PROOFS, part 3. What reset leaves, a return after a call, the sound timer, and the schedules of the host. -/

namespace Sys2Proof.Machine

variable {i : Instr} {s t : State}

/-! ### Reset -/

/-- Memory after reset: the default font, then zeros (spec/70_reset_and_hazards.md R281, R283). -/
theorem State.reset_mem_read (a : Nat) : State.reset.mem.read a = if a < 80 then defaultFont.getD a 0 else 0 := by
  split
  · rfl
  · exact Memory.unlisted_outside (by omega)

/-- Settles O1. -/
theorem resetState : Obligations.ResetState := by
  refine ⟨rfl, rfl, rfl, rfl, rfl, rfl, rfl, fun r => ?_, fun j => ?_, fun k => ?_, cellOn_clearFb,
    State.reset_mem_read, rfl, rfl⟩
  · exact Vector.getElem_replicate r.isLt
  · exact Vector.getElem_replicate j.isLt
  · exact Vector.getElem_replicate k.isLt

/-! ### Call and return -/

/-- Settles O30: the pushed slot is the one popped. -/
theorem returnAfterCallResumes : Obligations.ReturnAfterCallResumes := by
  intro nnn s t p hsp h
  rw [exec_call_ok s nnn hsp] at h
  cases h
  refine ⟨_, exec_ret_ok _ ⟨s.sp.val, hsp⟩ rfl, ?_, rfl, fun j hj => ?_, rfl, ?_⟩
  · simp
  · have hne : s.sp.val ≠ j.val := by omega
    simp [hne]
  · exact ⟨fun _ _ => rfl, fun _ => rfl, ⟨rfl, rfl⟩, ⟨rfl, rfl⟩, rfl, rfl, rfl, rfl, rfl⟩

/-! ### The sound timer -/

theorem State.advance_skipIf_setSt (s : State) (b : Byte) (c : Bool) :
    (s.setSt b).advance.skipIf c = (s.advance.skipIf c).setSt b := by
  cases c <;> rfl

/-- Another ST before an instruction is another ST after it, unless the instruction is Fx18, which overwrites it
(spec/10_state.md R43). -/
theorem exec_setSt (b : Byte) (h : exec i s = .next t) :
    ∃ c, exec i (s.setSt b) = .next (t.setSt c) := by
  cases i with
  | ret =>
    obtain ⟨j, hj, rfl⟩ | ⟨hsp, rfl⟩ := exec_ret_cases h
    · exact ⟨b, exec_ret_ok (s.setSt b) j hj⟩
    · exact ⟨b, exec_ret_empty (s.setSt b) hsp⟩
  | call nnn =>
    obtain ⟨hsp, rfl⟩ | ⟨hsp, rfl⟩ := exec_call_cases h
    · exact ⟨b, exec_call_ok (s.setSt b) nnn hsp⟩
    · exact ⟨b, exec_call_full (s.setSt b) nnn hsp⟩
  | drw x y n =>
    obtain ⟨hr, rfl⟩ | ⟨hr, rfl⟩ := exec_drw_cases h
    · exact ⟨b, exec_drw_ok (s.setSt b) x y n hr⟩
    · exact ⟨b, exec_drw_outside (s.setSt b) x y n hr⟩
  | skp x =>
    obtain ⟨k, hk, rfl⟩ | ⟨hk, rfl⟩ := exec_skp_cases h
    · exact ⟨b, (exec_skp_ok (s.setSt b) x k hk).trans (congrArg _ (State.advance_skipIf_setSt s b _))⟩
    · exact ⟨b, exec_skp_outside (s.setSt b) x hk⟩
  | sknp x =>
    obtain ⟨k, hk, rfl⟩ | ⟨hk, rfl⟩ := exec_sknp_cases h
    · exact ⟨b, (exec_sknp_ok (s.setSt b) x k hk).trans (congrArg _ (State.advance_skipIf_setSt s b _))⟩
    · exact ⟨b, exec_sknp_outside (s.setSt b) x hk⟩
  | seImm | sneImm | seReg | sneReg =>
    cases h
    exact ⟨b, congrArg _ (State.advance_skipIf_setSt s b _)⟩
  | ldVxK x =>
    obtain ⟨k, hk, rfl⟩ | ⟨hk, rfl⟩ := exec_ldVxK_cases h
    · exact ⟨b, exec_ldVxK_pressed (s.setSt b) x k hk⟩
    · exact ⟨b, exec_ldVxK_stall (t.setSt b) x hk⟩
  | ldB x =>
    obtain ⟨hr, rfl⟩ | ⟨hr, rfl⟩ := exec_ldB_cases h
    · exact ⟨b, exec_ldB_ok (s.setSt b) x hr⟩
    · exact ⟨b, exec_ldB_outside (s.setSt b) x hr⟩
  | storeRegs x =>
    obtain ⟨hr, rfl⟩ | ⟨hr, rfl⟩ := exec_storeRegs_cases h
    · exact ⟨b, exec_storeRegs_ok (s.setSt b) x hr⟩
    · exact ⟨b, exec_storeRegs_outside (s.setSt b) x hr⟩
  | loadRegs x =>
    obtain ⟨hr, rfl⟩ | ⟨hr, rfl⟩ := exec_loadRegs_cases h
    · exact ⟨b, exec_loadRegs_ok (s.setSt b) x hr⟩
    · exact ⟨b, exec_loadRegs_outside (s.setSt b) x hr⟩
  | ldStVx x =>
    cases h
    exact ⟨s.getV x, rfl⟩
  | _ =>
    cases h
    exact ⟨b, rfl⟩

/-- Settles O21. -/
theorem noInstructionReadsSoundTimer : Obligations.NoInstructionReadsSoundTimer := by
  intro i s t b h
  obtain ⟨c, hc⟩ := exec_setSt b h
  exact ⟨t.setSt c, hc, rfl⟩

/-! ### Schedules -/

/-- A step leaves the parameters alone: they are no instruction's to write (spec/10_state.md R48). -/
theorem step_keeps_params (h : step s = .next t) : t.params = s.params := by
  obtain ⟨-, hstep⟩ | ⟨-, i, -, hstep⟩ | ⟨-, f, w, -, hstep⟩ := step_cases s
  · cases hstep.symm.trans h
    rfl
  · exact exec_keeps_params (hstep.symm.trans h)
  · cases hstep.symm.trans h
    rfl

/-- A halted core answers every step with itself (spec/60_exceptions.md R254). -/
theorem step_of_halted {r : FaultRecord} (h : s.halt = some r) : step s = .next s := by
  simp only [step, h]

/-- A host operation writes neither the parameters nor HALT (spec/70_reset_and_hazards.md R294 to R297). -/
theorem State.move_host_keeps {m : Move} (hm : m ≠ .execute) (h : s.move m = .next t) :
    t.params = s.params ∧ t.halt = s.halt := by
  cases m with
  | execute => exact absurd rfl hm
  | pixel x y =>
    simp only [State.move] at h
    split at h <;> cases h
    exact ⟨rfl, rfl⟩
  | _ =>
    cases h
    exact ⟨rfl, rfl⟩

/-- One move keeps the parameters and a halt record. -/
theorem State.move_keeps_params_halt {m : Move} (h : s.move m = .next t) :
    t.params = s.params ∧ ∀ r, s.halt = some r → t.halt = some r := by
  by_cases hm : m = .execute
  · subst hm
    refine ⟨step_keeps_params h, fun r hr => ?_⟩
    cases (step_of_halted hr).symm.trans h
    exact hr
  · obtain ⟨hparams, hhalt⟩ := State.move_host_keeps hm h
    exact ⟨hparams, fun r hr => hhalt.trans hr⟩

/-- The inversion of a schedule that starts with a move. -/
theorem State.moves_cons {m : Move} {ms : List Move} (h : State.moves (m :: ms) s = .next t) :
    ∃ u, s.move m = .next u ∧ State.moves ms u = .next t := by
  unfold State.moves at h
  split at h
  · exact ⟨_, ‹_›, h⟩
  · cases h
  · cases h

/-- Settles O24, by induction on the schedule. -/
theorem anyScheduleKeepsParametersAndHalt : Obligations.AnyScheduleKeepsParametersAndHalt := by
  intro ms
  induction ms with
  | nil =>
    intro s t h
    cases h
    exact ⟨rfl, fun _ hr => hr⟩
  | cons m ms ih =>
    intro s t h
    obtain ⟨u, hmove, hrest⟩ := State.moves_cons h
    obtain ⟨hparams, hhalt⟩ := State.move_keeps_params_halt hmove
    obtain ⟨hparams', hhalt'⟩ := ih u t hrest
    exact ⟨hparams'.trans hparams, fun r hr => hhalt' r (hhalt r hr)⟩

end Sys2Proof.Machine
end

section
/-! PROOFS, part 4. The bytes of an instruction in memory, the fault an instruction raises, and code that a store writes. -/

namespace Sys2Proof

/-! ### Decoding what was encoded -/

/-- The decoder inverts the encoder: the packed fields select the family, and inside a family of several rows the last nibble
or the low byte selects the row (spec/30_encoding.md R85). Only 8xy8 depends on the setting (R86). -/
theorem decodeWord_encode {d : Decode8xy8} {i : Instr} (h : i.wellFormed d = true) : decodeWord d (encode i) = .ok i := by
  cases i with
  | cls | ret => rfl
  | jp | call | ldI | jpV0 | seImm | sneImm | ldImm | addImm | rnd | drw => simp [encode, decodeWord]
  | seReg | sneReg => simp [encode, decodeWord, decodeN0]
  | ldReg | orReg | andReg | xorReg | addReg | subReg | shr | subn | shl => simp [encode, decodeWord, decodeFamily8]
  | shl8 x y =>
    obtain rfl : d = .shl := of_decide_eq_true h
    simp [encode, decodeWord, decodeFamily8]
  | skp | sknp => simp [encode, decodeWord, decodeFamilyE]
  | ldVxDt | ldVxK | ldDtVx | ldStVx | addI | ldF | ldB | storeRegs | loadRegs =>
    simp [encode, decodeWord, decodeFamilyF]

/-- Two bytes and what follows decode as the word the bytes make (spec/20_memory.md R62). -/
theorem decodeBytes_of_word {d : Decode8xy8} {hi lo : Byte} {i : Instr} (h : decodeWord d (wordOfBytes hi lo) = .ok i)
    (rest : List Byte) : decodeBytes d (hi :: lo :: rest) = .ok (i, rest) := by
  simp only [decodeBytes, h]

/-- Settles O5. -/
theorem decodeOfEncodedBytes : Obligations.DecodeOfEncodedBytes := by
  intro d i rest h
  refine decodeBytes_of_word ?_ rest
  rw [wordOfBytes_bytes]
  exact decodeWord_encode h

end Sys2Proof

namespace Sys2Proof.Machine

variable {i : Instr} {s t : State}

/-! ### The fault of an instruction -/

/-- How many consecutive data addresses from I on an instruction accesses (spec/20_memory.md R61). -/
def accessCount (i : Instr) : Nat :=
  match i with
  | .drw _ _ n => n.val
  | .ldB _ => 3
  | .storeRegs x | .loadRegs x => x.val + 1
  | _ => 0

theorem accesses_iff {a : Nat} : accesses i s a ↔ s.base ≤ a ∧ a < s.base + accessCount i := by
  have offset (n : Nat) : (∃ k, k < n ∧ a = s.base + k) ↔ s.base ≤ a ∧ a < s.base + n :=
    ⟨fun ⟨k, hk, ha⟩ => by omega, fun h => ⟨a - s.base, by omega⟩⟩
  cases i with
  | drw x y n => exact offset n.val
  | ldB x => exact offset 3
  | storeRegs x | loadRegs x => simpa only [accesses, accessCount, Nat.lt_succ_iff] using offset (x.val + 1)
  | _ => exact iff_of_false id fun ⟨hle, hlt⟩ => absurd hle (Nat.not_le.mpr hlt)

/-- The fault of `CheckRange(a, n)`, if any (spec/00_scope.md R12, spec/20_memory.md R63). -/
def rangeFault (a n : Nat) : Option Fault := if n = 0 ∨ a + n ≤ 0x1000 then none else some (.memRange (max a 0x1000))

theorem rangeFault_outside {a n : Nat} (h : 0x1000 < a + (n + 1)) :
    rangeFault a (n + 1) = some (.memRange (max a 0x1000)) := if_neg (by omega)

/-- The fault an instruction raises at a state, if any (spec/60_exceptions.md R250). -/
def State.faultOf (s : State) (i : Instr) : Option Fault :=
  match i with
  | .ret => if s.sp = 0 then some .stackUnderflow else none
  | .call _ => if s.sp = 16 then some .stackOverflow else none
  | .skp x | .sknp x => if 15 < (s.getV x).toNat then some (.keyRange (s.getV x)) else none
  | _ => rangeFault s.base (accessCount i)

/-- An instruction raises exactly the fault `faultOf` gives; with none it leaves HALT as it was. -/
theorem exec_fault_cases (h : exec i s = .next t) :
    (s.faultOf i = none ∧ t.halt = s.halt) ∨ ∃ f, s.faultOf i = some f ∧ t = s.raise f (some (encode i)) := by
  cases i with
  | ret =>
    obtain ⟨j, hj, rfl⟩ | ⟨hsp, rfl⟩ := exec_ret_cases h
    · exact .inl ⟨if_neg fun h0 => by simp [h0] at hj, rfl⟩
    · exact .inr ⟨_, if_pos hsp, rfl⟩
  | call nnn =>
    obtain ⟨hsp, rfl⟩ | ⟨hsp, rfl⟩ := exec_call_cases h
    · exact .inl ⟨if_neg fun h16 => by simp [h16] at hsp, rfl⟩
    · exact .inr ⟨_, if_pos hsp, rfl⟩
  | skp x =>
    obtain ⟨k, hk, rfl⟩ | ⟨hk, rfl⟩ := exec_skp_cases h
    · exact .inl ⟨if_neg (by omega), State.skipIf_halt _ _⟩
    · exact .inr ⟨_, if_pos hk, rfl⟩
  | sknp x =>
    obtain ⟨k, hk, rfl⟩ | ⟨hk, rfl⟩ := exec_sknp_cases h
    · exact .inl ⟨if_neg (by omega), State.skipIf_halt _ _⟩
    · exact .inr ⟨_, if_pos hk, rfl⟩
  | drw x y n =>
    obtain ⟨hr, rfl⟩ | ⟨hr, rfl⟩ := exec_drw_cases h
    · exact .inl ⟨if_pos hr, rfl⟩
    · exact .inr ⟨_, if_neg hr, rfl⟩
  | ldB x =>
    obtain ⟨hr, rfl⟩ | ⟨hr, rfl⟩ := exec_ldB_cases h
    · exact .inl ⟨if_pos (.inr hr), rfl⟩
    · exact .inr ⟨_, rangeFault_outside hr, rfl⟩
  | storeRegs x =>
    obtain ⟨hr, rfl⟩ | ⟨hr, rfl⟩ := exec_storeRegs_cases h
    · exact .inl ⟨if_pos (.inr hr), rfl⟩
    · exact .inr ⟨_, rangeFault_outside hr, rfl⟩
  | loadRegs x =>
    obtain ⟨hr, rfl⟩ | ⟨hr, rfl⟩ := exec_loadRegs_cases h
    · exact .inl ⟨if_pos (.inr hr), rfl⟩
    · exact .inr ⟨_, rangeFault_outside hr, rfl⟩
  | ldVxK x => obtain ⟨k, -, rfl⟩ | ⟨-, rfl⟩ := exec_ldVxK_cases h <;> exact .inl ⟨rfl, rfl⟩
  | seImm | sneImm | seReg | sneReg =>
    cases h
    exact .inl ⟨rfl, State.skipIf_halt _ _⟩
  | _ =>
    cases h
    exact .inl ⟨rfl, rfl⟩

/-- From a running state HALT ends as the record of fault `f` exactly when `f` is the instruction's fault. -/
theorem exec_halt_fault_iff (hs : s.halt = none) (h : exec i s = .next t) {f : Fault} :
    (∃ r, t.halt = some r ∧ r.fault = f) ↔ s.faultOf i = some f := by
  obtain ⟨hnone, hhalt⟩ | ⟨g, hg, rfl⟩ := exec_fault_cases h
  · simp [hnone, hhalt, hs]
  · simp [hg]

/-- The data addresses above 0xFFF that an instruction accesses. -/
def outsideAccesses (i : Instr) (s : State) : Set Nat := {a | accesses i s a ∧ 0xFFF < a}

/-- The range check fails exactly on an access above 0xFFF, and `max I 0x1000` is the lowest one. -/
theorem rangeFault_eq_memRange_iff {a : Nat} :
    rangeFault s.base (accessCount i) = some (.memRange a) ↔ IsLeast (outsideAccesses i s) a := by
  have hmem {b : Nat} : b ∈ outsideAccesses i s ↔ (s.base ≤ b ∧ b < s.base + accessCount i) ∧ 0xFFF < b :=
    and_congr_left' accesses_iff
  unfold rangeFault
  split
  next hr => exact ⟨nofun, fun ⟨ha, _⟩ => by have := hmem.mp ha; omega⟩
  next hr =>
    have hleast : IsLeast (outsideAccesses i s) (max s.base 0x1000) :=
      ⟨hmem.mpr (by omega), fun b hb => by have := hmem.mp hb; omega⟩
    refine ⟨fun h => ?_, fun ha => by rw [ha.unique hleast]⟩
    cases h
    exact hleast

/-- The instructions with a fault of another kind access no memory, so MEM_RANGE is always the range check's. -/
theorem State.faultOf_eq_memRange_iff {a : Nat} :
    s.faultOf i = some (.memRange a) ↔ IsLeast (outsideAccesses i s) a := by
  rw [← rangeFault_eq_memRange_iff]
  cases i with
  | ret | call | skp | sknp => simp [State.faultOf, rangeFault, accessCount]
  | _ => rfl

/-- A running state's MEM_RANGE names the least access above 0xFFF (spec/20_memory.md R63). -/
theorem exec_memRange_iff (hs : s.halt = none) (h : exec i s = .next t) {a : Nat} :
    (∃ r, t.halt = some r ∧ r.fault = .memRange a) ↔ IsLeast (outsideAccesses i s) a :=
  (exec_halt_fault_iff hs h).trans State.faultOf_eq_memRange_iff

/-- Settles O17: some access lies above 0xFFF exactly when a least one does. -/
theorem memRangeRecordsLowestAddress : Obligations.MemRangeRecordsLowestAddress := by
  intro i s t hs h
  refine ⟨⟨fun hex => ?_, fun ⟨a, hr⟩ => ?_⟩, fun a r hr hf => ?_⟩
  · classical exact ⟨Nat.find hex, (exec_memRange_iff hs h).mpr (Nat.isLeast_find hex)⟩
  · obtain ⟨hmem, -⟩ := (exec_memRange_iff hs h).mp hr
    exact ⟨a, hmem⟩
  · obtain ⟨⟨hacc, hout⟩, hleast⟩ := (exec_memRange_iff hs h).mp ⟨r, hr, hf⟩
    exact ⟨hacc, hout, fun b hb hbout => hleast ⟨hb, hbout⟩⟩

/-! ### Code that changes itself -/

/-- Fx55 leaves V[j] in the byte at I + j (spec/42_index_memory.md R175). -/
theorem exec_storeRegs_read {x : Reg} (hwf : s.mem.wf = true) (hr : s.base + (x.val + 1) ≤ 0x1000)
    (h : exec (.storeRegs x) s = .next t) {j : Reg} (hj : j.val ≤ x.val) : t.mem.read (s.base + j.val) = s.getV j := by
  rw [exec_storeRegs_ok s x hr] at h
  cases h
  have hlen := s.length_regsTo x
  exact (Memory.read_writeBytes_inside hwf (by omega) (by omega)).trans (s.getElem_regsTo x j hj)

/-- A running core executes the instruction whose word lies at a fetchable PC, as memory holds it now
(spec/30_encoding.md R93, spec/20_memory.md R72). -/
theorem step_of_decodeWord (hs : s.halt = none) (hpc : s.pc.toNat ≤ 0xFFE)
    (h : decodeWord s.params.decode8xy8 (s.mem.readWord s.pc.toNat) = .ok i) : step s = exec i s := by
  simp only [step, hs, State.issue, h, if_neg (Nat.not_lt.mpr hpc)]

/-- Settles O48: the word at the next PC is V0 and V1 as stored there, and it decodes to `i`. -/
theorem storedInstructionIsExecutedNext : Obligations.StoredInstructionIsExecutedNext := by
  intro x i s t hs hwf hx hbase hpc hword hi h
  have hr : s.base + (x.val + 1) ≤ 0x1000 := by omega
  have h0 : t.mem.read s.base = s.getV 0 := exec_storeRegs_read hwf hr h (j := 0) (Nat.zero_le _)
  have h1 : t.mem.read (s.base + 1) = s.getV 1 := exec_storeRegs_read hwf hr h (j := 1) hx
  have hread : t.mem.readWord s.base = encode i := by
    rw [Memory.readWord, h0, h1]
    exact hword
  have hparams := exec_keeps_params h
  obtain ⟨hhalt, htpc⟩ : t.halt = none ∧ t.pc = s.pc + 2 := by
    rw [exec_storeRegs_ok s x hr] at h
    cases h
    exact ⟨hs, rfl⟩
  have hnext : t.pc.toNat = s.base := by
    rw [htpc]
    bv_omega
  refine step_of_decodeWord hhalt (by omega) ?_
  rw [hnext, hread, hparams]
  exact decodeWord_encode hi

end Sys2Proof.Machine
end

section
/-! PROOFS, part 5. The decoder and the opcode table of spec/30_encoding.md R85, and the two faults of a step outside an
instruction. -/

namespace Sys2Proof

variable {d : Decode8xy8} {w : Word} {i : Instr}

/-! ### Encoding what was decoded -/

/-- Settles O4: the decoder computes each of these words. -/
theorem specWordsDecode : Obligations.SpecWordsDecode := by
  unfold Obligations.SpecWordsDecode
  decide

/-- What an answer for the word `w` may be: an instruction of which `w` is the encoding, or the rejection of `w`. -/
def IsReadingOf (d : Decode8xy8) (w : Word) (r : Except DecodeError Instr) : Prop :=
  match r with
  | .ok i => encode i = w ∧ i.wellFormed d = true
  | .error e => e = .unknownOpcode w

/-! A word packs back from its fields when its fixed digits have been checked. -/

theorem packXYN_of_digits {f n : Nibble} (hf : (nibblesOf w).f.val = f.val) (hn : (nibblesOf w).n.val = n.val) :
    packXYN f (nibblesOf w).x (nibblesOf w).y n = w := by
  rw [← Fin.ext hf, ← Fin.ext hn, packXYN_nibblesOf]

theorem packXKK_of_digits {f : Nibble} {kk : Byte} (hf : (nibblesOf w).f.val = f.val)
    (hk : (byteField w).toNat = kk.toNat) : packXKK f (nibblesOf w).x kk = w := by
  rw [← Fin.ext hf, ← BitVec.eq_of_toNat_eq hk, packXKK_fields]

theorem packNNN_of_digit {f : Nibble} (hf : (nibblesOf w).f.val = f.val) : packNNN f (addrField w) = w := by
  rw [← Fin.ext hf, packNNN_fields]

theorem decodeFamily0_isReading (d : Decode8xy8) (w : Word) : IsReadingOf d w (decodeFamily0 w) := by
  unfold decodeFamily0
  split
  next hw => exact ⟨hw.symm, rfl⟩
  next =>
    split
    next hw => exact ⟨hw.symm, rfl⟩
    next => rfl

/-- A family that needs `N = 0`, given that its constructor packs back and needs no setting. -/
theorem decodeN0_isReading {mk : Reg → Reg → Instr} {f : Nibble} (hf : (nibblesOf w).f.val = f.val)
    (hmk : ∀ x y, encode (mk x y) = packXYN f x y 0 ∧ (mk x y).wellFormed d = true) :
    IsReadingOf d w (decodeN0 w mk) := by
  unfold decodeN0
  split
  next hn =>
    obtain ⟨hencode, hwf⟩ := hmk (nibblesOf w).x (nibblesOf w).y
    exact ⟨hencode.trans (packXYN_of_digits hf hn), hwf⟩
  next => rfl

/-- The ninth case is 8xy8, the one row that needs a setting; the last is the rejection. -/
theorem decodeFamily8_isReading (hf : (nibblesOf w).f.val = 8) : IsReadingOf d w (decodeFamily8 d w) := by
  unfold decodeFamily8
  split
  case h_9 hn =>
    cases d with
    | shl => exact ⟨packXYN_of_digits hf hn, rfl⟩
    | unknown => rfl
  case h_11 => rfl
  all_goals exact ⟨packXYN_of_digits hf ‹_›, rfl⟩

theorem decodeFamilyE_isReading (hf : (nibblesOf w).f.val = 0xE) : IsReadingOf d w (decodeFamilyE w) := by
  unfold decodeFamilyE
  split
  case h_3 => rfl
  all_goals exact ⟨packXKK_of_digits hf ‹_›, rfl⟩

theorem decodeFamilyF_isReading (hf : (nibblesOf w).f.val = 0xF) : IsReadingOf d w (decodeFamilyF w) := by
  unfold decodeFamilyF
  split
  case h_10 => rfl
  all_goals exact ⟨packXKK_of_digits hf ‹_›, rfl⟩

/-- The decoder drops no bit: what a family gives packs back from the digits it has checked and the fields it has read
(spec/30_encoding.md R82, R86). The cases are the families 0 to F, and the unreachable default. -/
theorem decodeWord_isReading (d : Decode8xy8) (w : Word) : IsReadingOf d w (decodeWord d w) := by
  unfold decodeWord
  split
  next => exact decodeFamily0_isReading d w
  next hf => exact ⟨packNNN_of_digit hf, rfl⟩
  next hf => exact ⟨packNNN_of_digit hf, rfl⟩
  next hf => exact ⟨packXKK_of_digits hf rfl, rfl⟩
  next hf => exact ⟨packXKK_of_digits hf rfl, rfl⟩
  next hf => exact decodeN0_isReading hf fun _ _ => ⟨rfl, rfl⟩
  next hf => exact ⟨packXKK_of_digits hf rfl, rfl⟩
  next hf => exact ⟨packXKK_of_digits hf rfl, rfl⟩
  next hf => exact decodeFamily8_isReading hf
  next hf => exact decodeN0_isReading hf fun _ _ => ⟨rfl, rfl⟩
  next hf => exact ⟨packNNN_of_digit hf, rfl⟩
  next hf => exact ⟨packNNN_of_digit hf, rfl⟩
  next hf => exact ⟨packXKK_of_digits hf rfl, rfl⟩
  next hf => exact ⟨packXYN_of_digits hf rfl, rfl⟩
  next hf => exact decodeFamilyE_isReading hf
  next hf => exact decodeFamilyF_isReading hf
  next => rfl

theorem encode_of_decodeWord (h : decodeWord d w = .ok i) : encode i = w ∧ i.wellFormed d = true := by
  have hr := decodeWord_isReading d w
  rwa [h] at hr

theorem decodeWord_of_forall_ne (h : ∀ i, decodeWord d w ≠ .ok i) : decodeWord d w = .error (.unknownOpcode w) := by
  have hr := decodeWord_isReading d w
  cases hd : decodeWord d w with
  | ok i => exact absurd hd (h i)
  | error e =>
    rw [hd] at hr
    exact congrArg _ hr

/-- Settles O6. -/
theorem encodeOfDecodedWord : Obligations.EncodeOfDecodedWord := fun _ _ _ => encode_of_decodeWord

/-! ### The rows of the table -/

/-- A row of mask 0xFFFF selects its pattern alone. -/
theorem selects_FFFF {p : Word} : (OpcodeRow.mk 0xFFFF p).selects w = true ↔ w = p := by
  rw [OpcodeRow.selects, decide_eq_true_iff, show w &&& 0xFFFF = w from BitVec.and_allOnes]

/-- The row of an instruction: the digits of its word that are no operand (spec/30_encoding.md R85). -/
def Instr.row (i : Instr) : OpcodeRow :=
  match i with
  | .cls | .ret => ⟨0xFFFF, encode i⟩
  | .seReg _ _ | .ldReg _ _ | .orReg _ _ | .andReg _ _ | .xorReg _ _ | .addReg _ _ | .subReg _ _ | .shr _ _ | .subn _ _
  | .shl8 _ _ | .shl _ _ | .sneReg _ _ =>
    ⟨0xF00F, BitVec.ofNat 16 ((nibblesOf (encode i)).f.val * 4096 + (nibblesOf (encode i)).n.val)⟩
  | .skp _ | .sknp _ | .ldVxDt _ | .ldVxK _ | .ldDtVx _ | .ldStVx _ | .addI _ | .ldF _ | .ldB _ | .storeRegs _
  | .loadRegs _ =>
    ⟨0xF0FF, BitVec.ofNat 16 ((nibblesOf (encode i)).f.val * 4096 + (byteField (encode i)).toNat)⟩
  | _ => ⟨0xF000, BitVec.ofNat 16 ((nibblesOf (encode i)).f.val * 4096)⟩

/-- One instruction for each row, in the table's order. -/
def rowInstrs : List Instr :=
  [.cls, .ret, .jp 0, .call 0, .seImm 0 0, .sneImm 0 0, .seReg 0 0, .ldImm 0 0, .addImm 0 0, .ldReg 0 0, .orReg 0 0,
   .andReg 0 0, .xorReg 0 0, .addReg 0 0, .subReg 0 0, .shr 0 0, .subn 0 0, .shl8 0 0, .shl 0 0, .sneReg 0 0, .ldI 0,
   .jpV0 0, .rnd 0 0, .drw 0 0 0, .skp 0, .sknp 0, .ldVxDt 0, .ldVxK 0, .ldDtVx 0, .ldStVx 0, .addI 0, .ldF 0, .ldB 0,
   .storeRegs 0, .loadRegs 0]

/-- The table lists the rows of the instructions that exist under the setting. -/
theorem opcodeRows_eq (d : Decode8xy8) : opcodeRows d = (rowInstrs.filter (·.wellFormed d)).map Instr.row := by
  cases d <;> decide

theorem exists_instr_of_mem_opcodeRows {r : OpcodeRow} (h : r ∈ opcodeRows d) :
    ∃ i : Instr, i.wellFormed d = true ∧ i.row = r := by
  rw [opcodeRows_eq] at h
  obtain ⟨i, hi, hrow⟩ := List.mem_map.mp h
  exact ⟨i, (List.mem_filter.mp hi).2, hrow⟩

theorem row_mem_opcodeRows (h : i.wellFormed d = true) : i.row ∈ opcodeRows d := by
  cases i with
  | shl8 x y =>
    obtain rfl : d = .shl := of_decide_eq_true h
    simp only [Instr.row, encode, nibblesOf_packXYN]
    decide
  | _ =>
    simp only [Instr.row, encode, nibblesOf_packXYN, nibblesOf_packXKK_f, byteField_packXKK, nibblesOf_packNNN_f]
    cases d <;> decide

theorem row_selects_encode (i : Instr) : i.row.selects (encode i) = true := by
  cases i with
  | cls | ret => rfl
  | seReg | ldReg | orReg | andReg | xorReg | addReg | subReg | shr | subn | shl8 | shl | sneReg =>
    exact (selects_F00F _ _ _).mpr ⟨rfl, rfl⟩
  | skp | sknp | ldVxDt | ldVxK | ldDtVx | ldStVx | addI | ldF | ldB | storeRegs | loadRegs =>
    exact (selects_F0FF _ _ _).mpr ⟨rfl, rfl⟩
  | _ => exact (selects_F000 _ _).mpr rfl

/-- A word with the fixed digits of an instruction that exists decodes, if with other operands. -/
theorem decodeWord_of_row_selects (hi : i.wellFormed d = true) (h : i.row.selects w = true) :
    ∃ j, decodeWord d w = .ok j := by
  cases i with
  | cls | ret =>
    obtain rfl := selects_FFFF.mp h
    exact ⟨_, decodeWord_encode hi⟩
  | seReg | sneReg =>
    obtain ⟨hf, hn⟩ := (selects_F00F _ _ _).mp h
    simp [decodeWord, decodeN0, hf, hn, encode]
  | ldReg | orReg | andReg | xorReg | addReg | subReg | shr | subn | shl =>
    obtain ⟨hf, hn⟩ := (selects_F00F _ _ _).mp h
    simp [decodeWord, decodeFamily8, hf, hn, encode]
  | shl8 x y =>
    obtain rfl : d = .shl := of_decide_eq_true hi
    obtain ⟨hf, hn⟩ := (selects_F00F _ _ _).mp h
    simp [decodeWord, decodeFamily8, hf, hn, encode]
  | skp | sknp =>
    obtain ⟨hf, hk⟩ := (selects_F0FF _ _ _).mp h
    simp [decodeWord, decodeFamilyE, hf, hk, encode]
  | ldVxDt | ldVxK | ldDtVx | ldStVx | addI | ldF | ldB | storeRegs | loadRegs =>
    obtain ⟨hf, hk⟩ := (selects_F0FF _ _ _).mp h
    simp [decodeWord, decodeFamilyF, hf, hk, encode]
  | _ =>
    have hf := (selects_F000 _ _).mp h
    simp [decodeWord, hf, encode]

theorem decodeWord_ok_iff_row_selects :
    (∃ i, decodeWord d w = .ok i) ↔ ∃ r ∈ opcodeRows d, r.selects w = true := by
  constructor
  · rintro ⟨i, h⟩
    obtain ⟨rfl, hwf⟩ := encode_of_decodeWord h
    exact ⟨i.row, row_mem_opcodeRows hwf, row_selects_encode i⟩
  · rintro ⟨r, hr, hsel⟩
    obtain ⟨i, hwf, rfl⟩ := exists_instr_of_mem_opcodeRows hr
    exact decodeWord_of_row_selects hwf hsel

/-- Settles O7. -/
theorem decodesExactlyTheTableRows : Obligations.DecodesExactlyTheTableRows :=
  fun _ _ => ⟨decodeWord_ok_iff_row_selects, decodeWord_of_forall_ne⟩

/-- The two rows ask for different bits at a place that both fix. -/
def OpcodeRow.Clash (r q : OpcodeRow) : Prop := r.pattern &&& q.mask ≠ q.pattern &&& r.mask

theorem OpcodeRow.Clash.not_both {r q : OpcodeRow} (h : r.Clash q) (hr : r.selects w = true) (hq : q.selects w = true) :
    False := by
  have hr' : w &&& r.mask = r.pattern := of_decide_eq_true hr
  have hq' : w &&& q.mask = q.pattern := of_decide_eq_true hq
  apply h
  rw [← hr', ← hq', BitVec.and_assoc, BitVec.and_assoc, BitVec.and_comm r.mask]

theorem opcodeRows_pairwise_clash (d : Decode8xy8) : (opcodeRows d).Pairwise OpcodeRow.Clash := by
  unfold OpcodeRow.Clash
  cases d <;> decide

/-- Settles O8: any two rows clash, so the rows that select a word are one at most. -/
theorem opcodeRowsNeverOverlap : Obligations.OpcodeRowsNeverOverlap := by
  intro d w
  have hpair : ((opcodeRows d).filter (·.selects w)).Pairwise fun _ _ => False :=
    List.pairwise_filter.mpr ((opcodeRows_pairwise_clash d).imp fun h hr hq => h.not_both hr hq)
  cases hrows : (opcodeRows d).filter (·.selects w) with
  | nil => exact Nat.zero_le 1
  | cons r rest =>
    rw [hrows] at hpair
    obtain rfl : rest = [] := List.eq_nil_iff_forall_not_mem.mpr (List.pairwise_cons.mp hpair).1
    exact Nat.le_refl 1

/-! ### The word in memory -/

/-- Two bytes that decode do so as the word they make (spec/20_memory.md R62). -/
theorem decodeWord_of_bytes {hi lo : Byte} {rest rest' : List Byte}
    (h : decodeBytes d (hi :: lo :: rest) = .ok (i, rest')) :
    decodeWord d (wordOfBytes hi lo) = .ok i := by
  cases hd : decodeWord d (wordOfBytes hi lo) with
  | ok j =>
    simp only [decodeBytes, hd] at h
    cases h
    rfl
  | error e =>
    simp only [decodeBytes, hd] at h
    cases h

/-- The nibble tuple of a word in memory order (spec/30_encoding.md R82). -/
theorem nibblesOf_wordOfBytes (hi lo : Byte) :
    (nibblesOf (wordOfBytes hi lo)).f.val = hi.toNat / 16 ∧ (nibblesOf (wordOfBytes hi lo)).x.val = hi.toNat % 16 ∧
    (nibblesOf (wordOfBytes hi lo)).y.val = lo.toNat / 16 ∧ (nibblesOf (wordOfBytes hi lo)).n.val = lo.toNat % 16 := by
  have := hi.isLt
  have := lo.isLt
  simp only [nibblesOf, nibbleAt_val, wordOfBytes_toNat]
  omega

end Sys2Proof

namespace Sys2Proof.Machine

variable {s : State}

/-! ### Fetch and decode in a step -/

/-- Settles O9. -/
theorem stepRunsDecodedInstruction : Obligations.StepRunsDecodedInstruction :=
  fun _ _ hs hpc h => step_of_decodeWord hs hpc (decodeWord_of_bytes h)

/-- A running core takes the fault of fetch or decode (spec/30_encoding.md R93, spec/60_exceptions.md R253). -/
theorem step_of_issue_error {f : Fault} {w : Option Word} (hs : s.halt = none) (h : s.issue = .error (f, w)) :
    step s = .next (s.raise f w) := by
  simp only [step, hs, h]

/-- Settles O10. -/
theorem fetchOutOfRangeFaults : Obligations.FetchOutOfRangeFaults := by
  intro s hs hpc
  obtain ⟨-, hissue⟩ | ⟨hle, -⟩ := s.issue_cases
  · exact ⟨_, step_of_issue_error hs hissue, rfl, rfl, rfl, rfl, rfl⟩
  · exact absurd hpc (Nat.not_lt.mpr hle)

/-- Settles O11: a word that no row selects does not decode. -/
theorem unknownOpcodeFaults : Obligations.UnknownOpcodeFaults := by
  rintro s _ _ hs hpc rfl rfl hrows
  obtain ⟨hlt, -⟩ | ⟨-, ⟨i, hd, -⟩ | ⟨e, -, hissue⟩⟩ := s.issue_cases
  · exact absurd hlt (Nat.not_lt.mpr hpc)
  · obtain ⟨r, hr, hsel⟩ := decodeWord_ok_iff_row_selects.mp ⟨i, hd⟩
    exact absurd hsel (Bool.eq_false_iff.mp (hrows r hr))
  · exact ⟨_, step_of_issue_error hs hissue, rfl, rfl, rfl, _, rfl, nibblesOf_wordOfBytes _ _⟩

end Sys2Proof.Machine
end

section
/-! PROOFS, part 6. Control transfer (spec/40_control.md): the jumps, the skips, call and return. -/

namespace Sys2Proof.Machine

/-! ### What a transfer leaves unchanged -/

/-- A write of PC alone stays within the frame of an instruction that writes no register. -/
theorem registerFrame_setPc (s : State) (w : Word) : RegisterFrame noReg s (s.setPc w) :=
  ⟨rfl, fun _ _ => rfl, fun _ => rfl, ⟨rfl, rfl⟩, ⟨rfl, rfl⟩, rfl, rfl, rfl, rfl, rfl⟩

/-- A skip, taken or not, is one write of PC (spec/40_control.md R101). -/
theorem registerFrame_skip (s : State) (c : Bool) : RegisterFrame noReg s (s.advance.skipIf c) := by
  cases c with
  | false => exact registerFrame_setPc s (s.pc + 2)
  | true => exact registerFrame_setPc s (s.pc + 2 + 2)

/-- What stays when PC and the stack alone are written, as a call and a return do (spec/10_state.md R41, R42). -/
theorem stackWrite_frame {s t : State} {p : Word} {n : Fin 17} {k : Vector Word 16}
    (h : t = { s with pc := p, sp := n, stack := k }) :
    t.i = s.i ∧ SameRegsBut noReg s t ∧ SameMemory s t ∧ SameTimers s t ∧ t.fb = s.fb ∧ SameOutside s t := by
  subst h
  exact ⟨rfl, fun _ _ => rfl, fun _ => rfl, ⟨rfl, rfl⟩, rfl, rfl, rfl, rfl, rfl⟩

/-! ### Jumps -/

/-- Settles O26. -/
theorem jumpSetsPc : Obligations.JumpSetsPc :=
  fun nnn s => ⟨_, exec_jp s nnn, addrImm_toNat nnn, registerFrame_setPc s _⟩

/-- Settles O27: a 12-bit immediate and a byte never wrap 16 bits. -/
theorem jumpWithOffsetAddsV0 : Obligations.JumpWithOffsetAddsV0 :=
  fun nnn s => ⟨_, exec_jpV0 s nnn, addrImm_add_byteImm_toNat nnn (s.getV 0), registerFrame_setPc s _⟩

/-! ### Skips -/

/-- Settles O31. -/
theorem skipOnByte : Obligations.SkipOnByte :=
  fun x kk s =>
    ⟨⟨_, exec_seImm s x kk, State.skip_pc_decide s _, registerFrame_skip s _⟩,
     ⟨_, exec_sneImm s x kk, State.skip_pc_decide_not s _, registerFrame_skip s _⟩⟩

/-- Settles O32. -/
theorem skipOnRegisters : Obligations.SkipOnRegisters :=
  fun x y s =>
    ⟨⟨_, exec_seReg s x y, State.skip_pc_decide s _, registerFrame_skip s _⟩,
     ⟨_, exec_sneReg s x y, State.skip_pc_decide_not s _, registerFrame_skip s _⟩⟩

/-! ### Call and return -/

/-- Settles O28: the call either raises on a full stack, or writes the slot at the old SP and no other. -/
theorem callPushesReturnAddress : Obligations.CallPushesReturnAddress := by
  intro nnn s
  constructor
  · intro hfull
    exact ⟨_, exec_call_full s nnn (Fin.ext hfull), rfl, rfl, rfl, rfl⟩
  · intro j hj
    have hroom : s.sp.val < 16 := hj ▸ j.isLt
    refine ⟨_, exec_call_ok s nnn hroom, addrImm_toNat nnn, congrArg (· + 1) hj, ?_, fun k hk => ?_,
      stackWrite_frame rfl⟩
    · simp [hj]
    · have hne : s.sp.val ≠ k.val := fun h => hk (Fin.ext (h.symm.trans hj))
      simp [hne]

/-- Settles O29: the return either raises on an empty stack, or writes PC and SP and no slot. -/
theorem returnPopsPc : Obligations.ReturnPopsPc := by
  intro s
  constructor
  · intro hempty
    exact ⟨_, exec_ret_empty s (Fin.ext hempty), rfl, rfl, rfl, rfl⟩
  · intro j hj
    exact ⟨_, exec_ret_ok s j hj, rfl, rfl, rfl, stackWrite_frame rfl⟩

end Sys2Proof.Machine
end

section
/-! PROOFS, part 7. Register arithmetic and logic (spec/41_alu.md): what the flag computations give as numbers, and what an
instruction that writes one register, or a result and then VF, leaves unchanged. -/

namespace Sys2Proof.Machine

/-! ### Results and flags as numbers -/

theorem flagByte_decide_toNat (p : Prop) [Decidable p] : (flagByte (decide p)).toNat = if p then 1 else 0 := by
  by_cases h : p <;> simp [flagByte, h]

/-- A flag taken from bit `k` of a byte is that binary digit of the byte. -/
theorem flagByte_getLsbD_toNat (b : Byte) (k : Nat) : (flagByte (b.getLsbD k)).toNat = b.toNat / 2 ^ k % 2 := by
  rw [BitVec.getLsbD, Nat.testBit_eq_decide_div_mod_eq, flagByte_decide_toNat]
  split <;> omega

theorem add8_fst_toNat (a b : Byte) : (add8 a b).1.toNat = (a.toNat + b.toNat) % 256 := BitVec.toNat_ofNat _ _

theorem add8_flag_toNat (a b : Byte) : (flagByte (add8 a b).2).toNat = if a.toNat + b.toNat > 255 then 1 else 0 :=
  flagByte_decide_toNat _

theorem sub8_fst_toNat (a b : Byte) : (sub8 a b).1.toNat = (a.toNat + 256 - b.toNat) % 256 := BitVec.toNat_ofNat _ _

theorem sub8_flag_toNat (a b : Byte) : (flagByte (sub8 a b).2).toNat = if a.toNat ≥ b.toNat then 1 else 0 :=
  flagByte_decide_toNat _

theorem shiftRight8_fst_toNat (b : Byte) : (shiftRight8 b).1.toNat = b.toNat / 2 := by
  rw [shiftRight8, BitVec.toNat_ushiftRight, Nat.shiftRight_one]

theorem shiftRight8_flag_toNat (b : Byte) : (flagByte (shiftRight8 b).2).toNat = b.toNat % 2 := by
  rw [shiftRight8, flagByte_getLsbD_toNat, Nat.pow_zero, Nat.div_one]

theorem shiftLeft8_fst_toNat (b : Byte) : (shiftLeft8 b).1.toNat = 2 * b.toNat % 256 := by
  rw [shiftLeft8, BitVec.toNat_shiftLeft, Nat.shiftLeft_eq, Nat.mul_comm]

/-- The top digit of a byte needs no reduction: a byte is below 256. -/
theorem shiftLeft8_flag_toNat (b : Byte) : (flagByte (shiftLeft8 b).2).toNat = b.toNat / 128 := by
  rw [shiftLeft8, flagByte_getLsbD_toNat]
  have := b.isLt
  omega

/-! ### What one write, and a result with its flag, leave unchanged -/

theorem State.shiftOperand_eq_getV (s : State) (x y : Reg) : s.shiftOperand x y = s.getV (shiftSourceReg s x y) := by
  unfold State.shiftOperand shiftSourceReg
  cases s.params.shiftSource <;> rfl

/-- One register written, VF only as the destination x = 0xF. -/
theorem registerFrame_setV (s : State) (x : Reg) (b : Byte) : RegisterFrame (· = x) s (s.advance.setV x b) :=
  ⟨rfl, fun _ hr => State.getV_setV_ne _ hr b, fun _ => rfl, ⟨rfl, rfl⟩, ⟨rfl, rfl⟩, rfl, rfl, rfl, rfl, rfl⟩

theorem registerFrame_setVFlag (s : State) (x : Reg) (r : Byte × Bool) :
    RegisterFrame (fun q => q = x ∨ q = regF) s (s.advance.setVFlag x r) :=
  ⟨rfl, fun _ hr => State.getV_setVFlag_ne (fun hF => hr (.inr hF)) (fun hx => hr (.inl hx)) r, fun _ => rfl,
    ⟨rfl, rfl⟩, ⟨rfl, rfl⟩, rfl, rfl, rfl, rfl, rfl⟩

/-- The flag is written last, so VF is the flag whatever x is, and V[x] is the result unless x = 0xF (spec/41_alu.md R131). -/
theorem resultAndFlag_setVFlag (s : State) (x : Reg) {r : Byte × Bool} {result flag : Nat} (hresult : r.1.toNat = result)
    (hflag : (flagByte r.2).toNat = flag) : ResultAndFlag x result flag s (s.advance.setVFlag x r) := by
  refine ⟨fun hx => ?_, ?_, rfl, registerFrame_setVFlag s x r⟩
  · rw [State.setVFlag_getV, if_neg hx, if_pos rfl, hresult]
  · rw [State.setVFlag_getV, if_pos rfl, hflag]

/-! ### Instructions without a flag -/

/-- Settles O33. -/
theorem loadAndAddImmediate : Obligations.LoadAndAddImmediate := by
  intro x kk s
  constructor
  · exact ⟨_, exec_ldImm s x kk, State.getV_setV_self _ _ _, rfl, registerFrame_setV s x _⟩
  · refine ⟨_, exec_addImm s x kk, ?_, rfl, registerFrame_setV s x _⟩
    rw [State.getV_setV_self, add8_fst_toNat]

/-- Settles O34. -/
theorem copyRegister : Obligations.CopyRegister :=
  fun x y s => ⟨_, exec_ldReg s x y, State.getV_setV_self _ _ _, rfl, registerFrame_setV s x _⟩

/-- Settles O35. -/
theorem logicBitByBit : Obligations.LogicBitByBit := by
  intro x y s
  refine ⟨⟨_, exec_orReg s x y, rfl, registerFrame_setV s x _, fun b => ?_⟩,
    ⟨_, exec_andReg s x y, rfl, registerFrame_setV s x _, fun b => ?_⟩,
    ⟨_, exec_xorReg s x y, rfl, registerFrame_setV s x _, fun b => ?_⟩⟩
  · rw [State.getV_setV_self, BitVec.getLsbD_or]
  · rw [State.getV_setV_self, BitVec.getLsbD_and]
  · rw [State.getV_setV_self, BitVec.getLsbD_xor]

/-- Settles O40: beside the count of draws, RND is one write of V[x]. -/
theorem randomAndImmediate : Obligations.RandomAndImmediate := by
  intro x kk s
  refine ⟨_, exec_rnd s x kk, fun b => ?_, rfl, rfl, registerFrame_setV s x _⟩
  rw [State.getV_setV_self, BitVec.getLsbD_and]

/-! ### Instructions with a flag -/

/-- Settles O36. -/
theorem addRegistersWithCarry : Obligations.AddRegistersWithCarry :=
  fun x y s => ⟨_, exec_addReg s x y, resultAndFlag_setVFlag s x (add8_fst_toNat _ _) (add8_flag_toNat _ _)⟩

/-- Settles O37. -/
theorem subtractRegistersWithNotBorrow : Obligations.SubtractRegistersWithNotBorrow :=
  fun x y s =>
    ⟨⟨_, exec_subReg s x y, resultAndFlag_setVFlag s x (sub8_fst_toNat _ _) (sub8_flag_toNat _ _)⟩,
     ⟨_, exec_subn s x y, resultAndFlag_setVFlag s x (sub8_fst_toNat _ _) (sub8_flag_toNat _ _)⟩⟩

/-- Settles O38. -/
theorem shiftRightBothSources : Obligations.ShiftRightBothSources := by
  intro x y s
  rw [← State.shiftOperand_eq_getV]
  exact ⟨_, exec_shr s x y, resultAndFlag_setVFlag s x (shiftRight8_fst_toNat _) (shiftRight8_flag_toNat _)⟩

/-- Settles O39: the two encodings execute alike. -/
theorem shiftLeftBothEncodings : Obligations.ShiftLeftBothEncodings := by
  intro x y s
  rw [← State.shiftOperand_eq_getV]
  have hshift := resultAndFlag_setVFlag s x (shiftLeft8_fst_toNat (s.shiftOperand x y)) (shiftLeft8_flag_toNat _)
  exact ⟨⟨_, exec_shl s x y, hshift⟩, ⟨_, exec_shl8 s x y, hshift⟩⟩

end Sys2Proof.Machine
end

section
/-! PROOFS, part 8. The index register and the memory transfers (spec/42_index_memory.md): I as a number, what a write of I
or of memory leaves unchanged, and the range fault the transfers share. -/

namespace Sys2Proof.Machine

/-! ### I as a number -/

/-- Five times a byte never wraps 16 bits (spec/42_index_memory.md R173). -/
theorem byteImm_mul_five_toNat (b : Byte) : (byteImm b * 5).toNat = 5 * b.toNat := by
  have hbyte := b.isLt
  simp only [BitVec.toNat_mul, byteImm_toNat, BitVec.reduceToNat]
  omega

theorem addIndex_fst_toNat (i : Word) (v : Byte) : (addIndex i v).1.toNat = (i.toNat + v.toNat) % 65536 :=
  BitVec.toNat_ofNat _ _

theorem addIndex_flag_toNat (i : Word) (v : Byte) :
    (flagByte (addIndex i v).2).toNat = if i.toNat + v.toNat > 0xFFFF then 1 else 0 :=
  flagByte_decide_toNat _

/-- A transfer that stays inside memory advances I without wrap. -/
theorem State.bumpI_i_toNat {s : State} {x : Reg} (h : s.base + x.val ≤ 0xFFF) :
    (s.bumpI x).i.toNat = s.i.toNat + x.val + 1 := by
  rw [State.base] at h
  rw [State.bumpI_i, BitVec.toNat_add, BitVec.toNat_ofNat]
  omega

/-! ### What a write of I or of memory leaves unchanged -/

theorem indexFrame_setI (s : State) (w : Word) : IndexFrame noReg s (s.advance.setI w) :=
  ⟨fun _ _ => rfl, fun _ => rfl, ⟨rfl, rfl⟩, ⟨rfl, rfl⟩, rfl, rfl, rfl, rfl, rfl⟩

/-- What stays when PC, I and memory alone are written, as Fx33 and Fx55 do (spec/42_index_memory.md R174, R175). -/
theorem memoryWrite_frame {s t : State} {p w : Word} {m : Memory} (h : t = { s with pc := p, i := w, mem := m }) :
    SameRegsBut noReg s t ∧ SameStack s t ∧ SameTimers s t ∧ t.fb = s.fb ∧ SameOutside s t := by
  subst h
  exact ⟨fun _ _ => rfl, ⟨rfl, rfl⟩, ⟨rfl, rfl⟩, rfl, rfl, rfl, rfl, rfl⟩

/-! ### The range fault -/

/-- A step that raises at the first address above 0xFFF raises MEM_RANGE as the statements spell it (spec/20_memory.md R63,
spec/60_exceptions.md R252). -/
theorem raisesMemRange_of_exec {i : Instr} {s : State}
    (h : exec i s = .next (s.raise (.memRange (max s.base 0x1000)) (some (encode i)))) : RaisesMemRange i s := by
  have hfirst : max s.base 0x1000 = if 0xFFF < s.base then s.base else 0x1000 := by
    split <;> omega
  exact ⟨_, h, rfl, rfl, rfl, congrArg some hfirst⟩

/-! ### Instructions that write I alone, or I and VF -/

/-- Settles O41. -/
theorem loadIndex : Obligations.LoadIndex :=
  fun nnn s => ⟨_, exec_ldI s nnn, addrImm_toNat nnn, rfl, indexFrame_setI s _⟩

/-- Settles O42. -/
theorem fontAddressIsFiveTimesByte : Obligations.FontAddressIsFiveTimesByte :=
  fun x s => ⟨_, exec_ldF s x, byteImm_mul_five_toNat _, rfl, indexFrame_setI s _⟩

/-- Settles O43: VF is written after V[x] is read, so with x = 0xF the old VF is added. -/
theorem addToIndexWithCarry : Obligations.AddToIndexWithCarry := by
  intro x s
  refine ⟨_, exec_addI s x, addIndex_fst_toNat _ _, ?_, rfl, fun _ hr => State.getV_setV_ne _ hr _, fun _ => rfl,
    ⟨rfl, rfl⟩, ⟨rfl, rfl⟩, rfl, rfl, rfl, rfl, rfl⟩
  rw [State.getV_setV_self, addIndex_flag_toNat]

/-! ### Memory transfers -/

/-- Each digit of a byte fits a byte (spec/42_index_memory.md R174). -/
theorem toNat_of_bcdDigits_eq {b hundreds tens ones : Byte} (h : bcdDigits b = [hundreds, tens, ones]) :
    hundreds.toNat = b.toNat / 100 ∧ tens.toNat = b.toNat / 10 % 10 ∧ ones.toNat = b.toNat % 10 := by
  cases h
  have hbyte := b.isLt
  simp only [BitVec.toNat_ofNat]
  omega

/-- Settles O44. -/
theorem bcdStoresThreeDigits : Obligations.BcdStoresThreeDigits := by
  intro x s
  refine ⟨fun hout => raisesMemRange_of_exec (exec_ldB_outside s x (by omega)), fun hwf hin => ?_⟩
  obtain ⟨hhundreds, htens, hones⟩ := toNat_of_bcdDigits_eq (b := s.getV x) rfl
  have hread {k : Nat} (hk : k < 3) :
      (s.mem.writeBytes s.base (bcdDigits (s.getV x))).read (s.base + k) = (bcdDigits (s.getV x))[k] :=
    Memory.read_writeBytes_inside hwf (Nat.succ_le_succ hin) hk
  refine ⟨_, exec_ldB_ok s x (by omega), ?_, ?_, ?_, fun _ ha => Memory.read_writeBytes_outside ha, rfl, rfl,
    memoryWrite_frame rfl⟩
  · exact (congrArg BitVec.toNat (hread (k := 0) (by omega))).trans hhundreds
  · exact (congrArg BitVec.toNat (hread (k := 1) (by omega))).trans htens
  · exact (congrArg BitVec.toNat (hread (k := 2) (by omega))).trans hones

/-- Settles O45. -/
theorem blockStoreWritesAndAdvances : Obligations.BlockStoreWritesAndAdvances := by
  intro x s
  refine ⟨fun hout => raisesMemRange_of_exec (exec_storeRegs_outside s x (by omega)), fun hwf hin => ?_⟩
  have hr : s.base + (x.val + 1) ≤ 0x1000 := by omega
  have hstore := exec_storeRegs_ok s x hr
  refine ⟨_, hstore, fun j hj => exec_storeRegs_read hwf hr hstore hj,
    fun a ha => Memory.read_writeBytes_outside ?_, State.bumpI_i_toNat hin, rfl, memoryWrite_frame rfl⟩
  rw [State.length_regsTo]
  omega

/-- Settles O46: register `j` is loaded exactly when `j ≤ x`. -/
theorem blockLoadReadsAndAdvances : Obligations.BlockLoadReadsAndAdvances := by
  intro x s
  refine ⟨fun hout => raisesMemRange_of_exec (exec_loadRegs_outside s x (by omega)), fun hin => ?_⟩
  have hload (j : Reg) := getElem_loadFrom s.mem s.base (x.val + 1) s.v j.val j.isLt
  have hloaded {j : Reg} (hj : j.val ≤ x.val) := (hload j).trans (if_pos (Nat.lt_succ_of_le hj))
  have hkept {j : Reg} (hj : ¬ j.val ≤ x.val) := (hload j).trans (if_neg (hj ∘ Nat.le_of_lt_succ))
  exact ⟨_, exec_loadRegs_ok s x (by omega), fun _ => hloaded, State.bumpI_i_toNat hin, rfl, fun _ => hkept,
    fun _ => rfl, ⟨rfl, rfl⟩, ⟨rfl, rfl⟩, rfl, rfl, rfl, rfl, rfl⟩

/-- Settles O47: the load reads, from the same I on, the bytes the store wrote, and both advance I alike. -/
theorem blockLoadAfterStoreRestores : Obligations.BlockLoadAfterStoreRestores := by
  intro x s t u hwf hin hstore hmem hi
  have hbase : u.base = s.base := congrArg BitVec.toNat hi
  obtain ⟨t', hstore', hwritten, -, hti, -⟩ := (blockStoreWritesAndAdvances x s).2 hwf hin
  cases hstore.symm.trans hstore'
  obtain ⟨q, hload, hloaded, hqi, -⟩ := (blockLoadReadsAndAdvances x u).2 (hbase ▸ hin)
  refine ⟨q, hload, fun j hj => ?_, BitVec.eq_of_toNat_eq ?_⟩
  · rw [hloaded j hj, hmem, hbase, hwritten j hj]
  · rw [hqi, hi, hti]

end Sys2Proof.Machine
end

section
/-! PROOFS, part 9. The framebuffer instructions (spec/43_display.md): the cells a draw toggles as the statements describe
them, what a draw and a second equal draw leave in the cells and in the flag. -/

namespace Sys2Proof.Machine

theorem flagByte_eq_one_iff {b : Bool} : flagByte b = 1 ↔ b = true := by
  cases b <;> decide

theorem flagByte_eq_zero_iff {b : Bool} : flagByte b = 0 ↔ b = false := by
  cases b <;> decide

/-! ### The cells a draw toggles -/

theorem cellAt_eq_iff_landsOn {s : State} {x y : Reg} {k c : Nat} {row : Fin 32} {col : Fin 64} :
    cellAt (s.getV x) (s.getV y) k c = (row, col) ↔ landsOn s x y k c row col := by
  simp only [cellAt, landsOn, Prod.mk.injEq, Fin.ext_iff, Fin.ofNat, eq_comm]

/-- Two pixels of one draw that land on one cell are one pixel (spec/43_display.md R204). -/
theorem landsOn_inj {s : State} {x y : Reg} {k k' c c' : Nat} {row : Fin 32} {col : Fin 64} (hk : k < 32) (hk' : k' < 32)
    (hc : c < 64) (hc' : c' < 64) (h : landsOn s x y k c row col) (h' : landsOn s x y k' c' row col) : k = k' ∧ c = c' :=
  cellAt_inj hk hk' hc hc' ((cellAt_eq_iff_landsOn.mpr h).trans (cellAt_eq_iff_landsOn.mpr h').symm)

/-- A draw toggles the cells on which its pixels of value 1 land (spec/43_display.md R200, R201). -/
theorem mem_drawnCells {s : State} {x y : Reg} {n : Nibble} {row : Fin 32} {col : Fin 64} :
    (row, col) ∈ drawnCells s x y n ↔
      ∃ k c : Nat, k < n.val ∧ c < 8 ∧ landsOn s x y k c row col ∧ spriteBit s k c = true := by
  rw [drawnCells, mem_spriteCells]
  constructor
  · rintro ⟨k, hk, c, hc, hbit, hcell⟩
    rw [Memory.length_readBytes] at hk
    rw [Memory.getElem_readBytes hk] at hbit
    rw [Nat.zero_add] at hcell
    exact ⟨k, c, hk, hc, cellAt_eq_iff_landsOn.mp hcell, hbit⟩
  · rintro ⟨k, c, hk, hc, hland, hbit⟩
    refine ⟨k, by rwa [Memory.length_readBytes], c, hc, ?_, ?_⟩
    · rw [Memory.getElem_readBytes hk]
      exact hbit
    · rw [Nat.zero_add]
      exact cellAt_eq_iff_landsOn.mpr hland

/-- A cell under a pixel is toggled exactly when that pixel has value 1: no other pixel lands on it. -/
theorem mem_drawnCells_of_landsOn {s : State} {x y : Reg} {n : Nibble} {k c : Nat} {row : Fin 32} {col : Fin 64}
    (hk : k < n.val) (hc : c < 8) (hland : landsOn s x y k c row col) :
    (row, col) ∈ drawnCells s x y n ↔ spriteBit s k c = true := by
  rw [mem_drawnCells]
  constructor
  · rintro ⟨k', c', hk', hc', hland', hbit⟩
    obtain ⟨rfl, rfl⟩ := landsOn_inj (by omega) (by omega) (by omega) (by omega) hland hland'
    exact hbit
  · exact fun hbit => ⟨k, c, hk, hc, hland, hbit⟩

/-- Some toggled cell was on or off (`b`) before the draw, said with the pixels of the statements. -/
theorem exists_mem_drawnCells {s : State} {x y : Reg} {n : Nibble} {b : Bool} :
    (∃ p ∈ drawnCells s x y n, cellOn s.fb p.1 p.2 = b) ↔
      ∃ (k c : Nat) (row : Fin 32) (col : Fin 64), k < n.val ∧ c < 8 ∧ landsOn s x y k c row col ∧
        spriteBit s k c = true ∧ cellOn s.fb row col = b := by
  constructor
  · rintro ⟨⟨row, col⟩, hp, hb⟩
    obtain ⟨k, c, hk, hc, hland, hbit⟩ := mem_drawnCells.mp hp
    exact ⟨k, c, row, col, hk, hc, hland, hbit, hb⟩
  · rintro ⟨k, c, row, col, hk, hc, hland, hbit, hb⟩
    exact ⟨(row, col), mem_drawnCells.mpr ⟨k, c, hk, hc, hland, hbit⟩, hb⟩

/-- A draw reads only memory, I and its two registers. -/
theorem drawnCells_congr {s t : State} {x y : Reg} (n : Nibble) (hx : t.getV x = s.getV x)
    (hy : t.getV y = s.getV y) (hmem : t.mem = s.mem) (hi : t.i = s.i) : drawnCells t x y n = drawnCells s x y n := by
  rw [drawnCells, drawnCells, State.base, State.base, hmem, hi, hx, hy]

/-! ### One draw, and a second one of the same cells -/

/-- The flag of a draw is the collision of the statements (spec/43_display.md R202). -/
theorem flag_drawnCells_iff_collides {s : State} {x y : Reg} {n : Nibble} :
    (drawCells s.fb (drawnCells s x y n)).2 = true ↔ Collides s x y n :=
  (flag_drawCells (nodup_drawnCells s x y n)).trans exists_mem_drawnCells

/-- Drawing the same cells twice toggles each of them back (spec/43_display.md R205). -/
theorem drawCells_twice_fst (f : Framebuffer) (ps : List CellPos) : (drawCells (drawCells f ps).1 ps).1 = f := by
  apply fb_ext
  intro r c
  rw [cellOn_drawCells, cellOn_drawCells, Bool.xor_assoc, Bool.xor_self, Bool.xor_false]

/-- The second of two draws of the same cells collides where the first one turned a cell on (spec/43_display.md R205). -/
theorem flag_drawCells_twice {f : Framebuffer} {ps : List CellPos} (h : ps.Nodup) :
    (drawCells (drawCells f ps).1 ps).2 = true ↔ ∃ p ∈ ps, cellOn f p.1 p.2 = false := by
  have htoggled {p : CellPos} (hp : p ∈ ps) : cellOn (drawCells f ps).1 p.1 p.2 = !cellOn f p.1 p.2 := by
    rw [cellOn_drawCells_of_nodup h, decide_eq_true hp, Bool.xor_true]
  rw [flag_drawCells h]
  refine exists_congr fun p => and_congr_right fun hp => ?_
  rw [htoggled hp, Bool.not_eq_true']

/-! ### The instructions -/

/-- Settles O49: beside the framebuffer CLS writes PC alone. -/
theorem clearScreen : Obligations.ClearScreen :=
  fun s => ⟨_, exec_cls s, cellOn_clearFb, rfl, registerFrame_setPc s _⟩

/-- Settles O51: the range check comes before every write. -/
theorem drawOutOfRangeFaults : Obligations.DrawOutOfRangeFaults :=
  fun x y n s _ _ => raisesMemRange_of_exec (exec_drw_outside s x y n (by omega))

/-- Settles O50: a cell is toggled exactly when it is one of the drawn cells. -/
theorem drawSpriteXorsCells : Obligations.DrawSpriteXorsCells := by
  intro x y n s hin
  have hcell := cellOn_drawCells_of_nodup (f := s.fb) (nodup_drawnCells s x y n)
  refine ⟨_, exec_drw_ok s x y n hin, fun k c row col hk hc hland => ?_, fun row col hnone => ?_, fun hcol => ?_,
    fun hno => ?_, rfl, registerFrame_setV s regF _⟩
  · refine (hcell row col).trans ?_
    simp only [mem_drawnCells_of_landsOn hk hc hland, Bool.decide_eq_true]
  · have hout : (row, col) ∉ drawnCells s x y n := by
      rw [mem_drawnCells]
      rintro ⟨k, c, hk, hc, hland, -⟩
      exact hnone k c hk hc hland
    refine (hcell row col).trans ?_
    rw [decide_eq_false hout, Bool.xor_false]
  · rw [State.getV_setV_self, flagByte_eq_one_iff]
    exact flag_drawnCells_iff_collides.mpr hcol
  · rw [State.getV_setV_self, flagByte_eq_zero_iff, ← Bool.not_eq_true]
    exact mt flag_drawnCells_iff_collides.mp hno

/-- Settles O52: with the same origin the second draw toggles the same cells. -/
theorem drawingTwiceRestores : Obligations.DrawingTwiceRestores := by
  intro x y n s t u _ hst hhalt hx hy htu
  obtain ⟨hin, rfl⟩ | ⟨-, rfl⟩ := exec_drw_cases hst
  · have hsame := drawnCells_congr n hx hy rfl rfl
    obtain ⟨-, rfl⟩ | ⟨hout, -⟩ := exec_drw_cases htu
    · rw [hsame, State.getV_setV_self, flagByte_eq_one_iff, ← exists_mem_drawnCells]
      exact ⟨drawCells_twice_fst s.fb _, flag_drawCells_twice (nodup_drawnCells s x y n)⟩
    · exact absurd hin hout
  · cases hhalt

end Sys2Proof.Machine
end

section
/-! PROOFS, part 10. The keys and the timers (spec/44_timers_keys.md): the skips on a key, the wait for a key and its stall,
the timer moves. -/

namespace Sys2Proof.Machine

/-! ### Skips on a key -/

/-- A skip on the negation of a Boolean, such as the state of a key (spec/44_timers_keys.md R221). -/
theorem State.skip_pc_not (s : State) (c : Bool) :
    (s.advance.skipIf (!c)).pc = if c = true then s.pc + 2 else s.pc + 4 := by
  rw [State.skip_pc]
  cases c <;> rfl

/-- Settles O53. -/
theorem skipOnKey : Obligations.SkipOnKey := by
  intro x s
  refine ⟨fun k hk => ⟨?_, ?_⟩, fun hout => ⟨?_, ?_⟩⟩
  · exact ⟨_, exec_skp_ok s x k hk, State.skip_pc s _, registerFrame_skip s _⟩
  · exact ⟨_, exec_sknp_ok s x k hk, State.skip_pc_not s _, registerFrame_skip s _⟩
  · exact ⟨_, exec_skp_outside s x hout, rfl, rfl, rfl, rfl⟩
  · exact ⟨_, exec_sknp_outside s x hout, rfl, rfl, rfl, rfl⟩

/-! ### The wait for a key -/

/-- Settles O54: the index of a key fits in a byte. -/
theorem waitForKeyTakesLeast : Obligations.WaitForKeyTakesLeast := by
  intro x s k hpressed hup
  have hleast : s.leastPressed = some k := State.leastPressed_some.mpr ⟨hpressed, hup⟩
  refine ⟨_, exec_ldVxK_pressed s x k hleast, ?_, rfl, registerFrame_setV s x _⟩
  rw [State.getV_setV_self]
  exact (BitVec.toNat_ofNat _ _).trans (Nat.mod_eq_of_lt (by omega))

/-- A core that waits for a key is running, its instruction is Fx0A, and no key is pressed (spec/60_exceptions.md R265). -/
theorem State.waitsForKey_cases {s : State} (h : s.waitsForKey = true) :
    s.halt = none ∧ ∃ x, s.issue = .ok (.ldVxK x) ∧ s.leastPressed = none := by
  unfold State.waitsForKey at h
  split at h
  · exact ⟨‹_›, _, ‹_›, Option.isNone_iff_eq_none.mp h⟩
  · cases h

/-- A running core executes the instruction it issues (spec/30_encoding.md R93). -/
theorem step_of_issue_ok {s : State} {i : Instr} (hs : s.halt = none) (h : s.issue = .ok i) : step s = exec i s := by
  simp only [step, hs, h]

/-- One step of a core that waits for a key answers the same state: the stall rewinds PC (spec/44_timers_keys.md R222). -/
theorem step_of_waitsForKey {s : State} (h : s.waitsForKey = true) : step s = .next s := by
  obtain ⟨hrun, x, hissue, hnone⟩ := State.waitsForKey_cases h
  exact (step_of_issue_ok hrun hissue).trans (exec_ldVxK_stall s x hnone)

/-- A move that changes nothing changes nothing however often it is made. -/
theorem State.moves_replicate_of_fixed {s : State} {m : Move} (h : s.move m = .next s) (n : Nat) :
    State.moves (List.replicate n m) s = .next s := by
  induction n with
  | zero => rfl
  | succ n ih => simpa only [List.replicate_succ, State.moves, h] using ih

/-- Settles O55: the stalled state is a fixed point of the step. -/
theorem waitForKeyStalls : Obligations.WaitForKeyStalls :=
  fun _ n h => State.moves_replicate_of_fixed (m := .execute) (step_of_waitsForKey h) n

/-! ### Timer moves -/

/-- Settles O56: beside its timer, a write of DT or ST writes PC alone. -/
theorem timerMoves : Obligations.TimerMoves := by
  intro x s
  refine ⟨?_, ?_, ?_⟩
  · exact ⟨_, exec_ldVxDt s x, State.getV_setV_self _ _ _, rfl, registerFrame_setV s x _⟩
  · exact ⟨_, exec_ldDtVx s x, rfl, rfl, registerFrame_setPc s _⟩
  · exact ⟨_, exec_ldStVx s x, rfl, rfl, registerFrame_setPc s _⟩

end Sys2Proof.Machine
end

section
/-! PROOFS, part 11. Faults and ends (spec/60_exceptions.md): which instruction raises which fault, what a faulting step
leaves unchanged, the halted core and the jump to itself. -/

namespace Sys2Proof.Machine

variable {i : Instr} {s t : State}

/-! ### The faults of an instruction -/

/-- A range check of no byte passes, and its only fault is MEM_RANGE (spec/00_scope.md R12). -/
theorem rangeFault_eq_some {a n : Nat} {f : Fault} (h : rangeFault a n = some f) : n ≠ 0 ∧ ∃ b, f = .memRange b := by
  unfold rangeFault at h
  split at h
  next => cases h
  next hr =>
    cases h
    exact ⟨fun h0 => hr (.inl h0), _, rfl⟩

/-- The fault an instruction raises is one that spec/60_exceptions.md R250 lists for it; an instruction that accesses no
memory passes its range check. -/
theorem State.mayRaise_of_faultOf {f : Fault} (h : s.faultOf i = some f) : mayRaise i f := by
  cases i with
  | ret =>
    obtain ⟨-, rfl⟩ := Option.ite_some_none_eq_some.mp h
    exact rfl
  | call nnn =>
    obtain ⟨-, rfl⟩ := Option.ite_some_none_eq_some.mp h
    exact ⟨nnn, rfl⟩
  | skp x =>
    obtain ⟨-, rfl⟩ := Option.ite_some_none_eq_some.mp h
    exact .inl ⟨x, rfl⟩
  | sknp x =>
    obtain ⟨-, rfl⟩ := Option.ite_some_none_eq_some.mp h
    exact .inr ⟨x, rfl⟩
  | drw x y n =>
    obtain ⟨-, a, rfl⟩ := rangeFault_eq_some h
    exact .inl ⟨x, y, n, rfl⟩
  | ldB x =>
    obtain ⟨-, a, rfl⟩ := rangeFault_eq_some h
    exact .inr (.inl ⟨x, rfl⟩)
  | storeRegs x =>
    obtain ⟨-, a, rfl⟩ := rangeFault_eq_some h
    exact .inr (.inr (.inl ⟨x, rfl⟩))
  | loadRegs x =>
    obtain ⟨-, a, rfl⟩ := rangeFault_eq_some h
    exact .inr (.inr (.inr ⟨x, rfl⟩))
  | _ =>
    obtain ⟨hn, -⟩ := rangeFault_eq_some h
    exact absurd rfl hn

/-- Settles O15. -/
theorem faultsComeFromTheirInstructions : Obligations.FaultsComeFromTheirInstructions :=
  fun _ _ _ r hs h hr => State.mayRaise_of_faultOf ((exec_halt_fault_iff hs h).mp ⟨r, hr, rfl⟩)

/-- Settles O16: an instruction that answered a fault would be one that may raise it. -/
theorem neverFaultingInstructionsComplete : Obligations.NeverFaultingInstructionsComplete := by
  intro i s hnever
  obtain ⟨t, h⟩ := exec_next s i
  obtain ⟨-, hhalt⟩ | ⟨f, hf, -⟩ := exec_fault_cases h
  · exact ⟨t, h, hhalt⟩
  · exact absurd (State.mayRaise_of_faultOf hf) (hnever f)

/-! ### The fault of a step -/

/-- The word a fault record holds: none when the fetch itself faults, otherwise the word in memory at PC
(spec/60_exceptions.md R252). -/
def State.recordWord (s : State) (f : Fault) : Option Word :=
  if f = .fetchRange then none else some (s.mem.readWord s.pc.toNat)

/-- An issued instruction's encoding is the word it was fetched from: decoding drops no bit. -/
theorem State.encode_of_issue (h : s.issue = .ok i) : encode i = s.mem.readWord s.pc.toNat := by
  obtain ⟨-, hissue⟩ | ⟨-, ⟨j, hdecode, hissue⟩ | ⟨e, -, hissue⟩⟩ := s.issue_cases <;> cases hissue.symm.trans h
  exact (encode_of_decodeWord hdecode).1

/-- A fault of fetch has read no word, a fault of decode has read the word at PC (spec/30_encoding.md R80, R87). -/
theorem State.word_of_issue_error {f : Fault} {w : Option Word} (h : s.issue = .error (f, w)) : w = s.recordWord f := by
  obtain ⟨-, hissue⟩ | ⟨-, ⟨j, -, hissue⟩ | ⟨e, -, hissue⟩⟩ := s.issue_cases <;> cases hissue.symm.trans h <;> rfl

/-- No executed instruction raises FETCH_RANGE, so its record holds the word at PC (spec/60_exceptions.md R252, R255). -/
theorem State.word_of_faultOf {f : Fault} (h : s.issue = .ok i) (hf : s.faultOf i = some f) :
    some (encode i) = s.recordWord f := by
  have hne : f ≠ .fetchRange := by
    rintro rfl
    exact State.mayRaise_of_faultOf hf
  rw [State.encode_of_issue h, State.recordWord, if_neg hne]

/-- The inversion of a step that halts a running core: whether fetch, decode or the instruction raised, the step is one
`raise`. -/
theorem step_fault_cases {r : FaultRecord} (hs : s.halt = none) (h : step s = .next t) (hr : t.halt = some r) :
    ∃ f, t = s.raise f (s.recordWord f) := by
  obtain ⟨⟨q, hq⟩, -⟩ | ⟨-, i, hissue, hstep⟩ | ⟨-, f, w, hissue, hstep⟩ := step_cases s
  · cases hs.symm.trans hq
  · obtain ⟨-, hhalt⟩ | ⟨f, hf, ht⟩ := exec_fault_cases (hstep.symm.trans h)
    · cases hr.symm.trans (hhalt.trans hs)
    · rw [State.word_of_faultOf hissue hf] at ht
      exact ⟨f, ht⟩
  · cases hstep.symm.trans h
    exact ⟨f, by rw [State.word_of_issue_error hissue]⟩

/-- Settles O14. -/
theorem faultCommitsNothing : Obligations.FaultCommitsNothing := by
  intro s t r hs h hr
  obtain ⟨f, rfl⟩ := step_fault_cases hs h hr
  cases hr
  exact ⟨rfl, rfl, fun hf => if_pos hf, fun hf => if_neg hf⟩

/-- Settles O13: a fault, too, is a next state. -/
theorem stepAlwaysAnswers : Obligations.StepAlwaysAnswers := by
  intro s
  obtain ⟨-, hstep⟩ | ⟨-, i, -, hstep⟩ | ⟨-, f, w, -, hstep⟩ := step_cases s
  · exact ⟨s, hstep⟩
  · rw [hstep]
    exact exec_next s i
  · exact ⟨_, hstep⟩

/-! ### The halted core and the ends of a run -/

/-- A tick decrements and stays at 0, as truncated subtraction does (spec/70_reset_and_hazards.md R294, R295). -/
theorem tickDown_toNat (b : Byte) : (tickDown b).toNat = b.toNat - 1 := by
  unfold tickDown
  split
  next h => rw [h]; rfl
  next h => bv_omega

/-- Settles O12. -/
theorem haltedCoreIsStuck : Obligations.HaltedCoreIsStuck :=
  fun s _ h => ⟨step_of_halted h, s.tickDelay, rfl, tickDown_toNat s.dt, h⟩

/-- A core whose run ended well is running, and its instruction jumps to PC (spec/60_exceptions.md R265). -/
theorem State.endsWell_cases (h : s.endsWell = true) :
    s.halt = none ∧ ∃ nnn, s.issue = .ok (.jp nnn) ∧ addrImm nnn = s.pc := by
  unfold State.endsWell at h
  split at h
  · exact ⟨‹_›, _, ‹_›, of_decide_eq_true h⟩
  · cases h

/-- A jump to itself writes back the PC it was fetched at (spec/40_control.md R103). -/
theorem step_of_endsWell (h : s.endsWell = true) : step s = .next s := by
  obtain ⟨hrun, nnn, hissue, hself⟩ := State.endsWell_cases h
  rw [step_of_issue_ok hrun hissue, exec_jp, hself]
  rfl

/-- Settles O60. -/
theorem endStatesAreFixedPoints : Obligations.EndStatesAreFixedPoints := by
  rintro s (hwell | hbad)
  · exact step_of_endsWell hwell
  · obtain ⟨r, hr⟩ := Option.isSome_iff_exists.mp hbad
    exact step_of_halted hr

end Sys2Proof.Machine
end

section
/-! PROOFS, part 12. The host (spec/70_reset_and_hazards.md): construction, the timer ticks, the key setter, the pixel query,
and the invariant under every schedule. -/

namespace Sys2Proof.Machine

variable {s t : State} {m : Move}

/-! ### Host operations -/

/-- What a host operation can do, one case for each of R294 to R297; a query that is answered changes nothing. -/
theorem State.move_host_cases (hm : m ≠ .execute) (h : s.move m = .next t) :
    (m = .tickDelay ∧ t = s.tickDelay) ∨ ((m = .tickSound ∨ m = .soundTick) ∧ t = s.tickSound) ∨
    (∃ k pressed, m = .setKey k pressed ∧ t = s.setKey k pressed) ∨ (∃ x y, m = .pixel x y ∧ t = s) := by
  cases m with
  | execute => exact absurd rfl hm
  | tickDelay =>
    cases h
    exact .inl ⟨rfl, rfl⟩
  | tickSound =>
    cases h
    exact .inr (.inl ⟨.inl rfl, rfl⟩)
  | soundTick =>
    cases h
    exact .inr (.inl ⟨.inr rfl, rfl⟩)
  | setKey k pressed =>
    cases h
    exact .inr (.inr (.inl ⟨k, pressed, rfl, rfl⟩))
  | pixel x y =>
    simp only [State.move] at h
    split at h <;> cases h
    exact .inr (.inr (.inr ⟨x, y, rfl, rfl⟩))

/-- Settles O25. -/
theorem hostMovesWriteOnlyTimersAndKeys : Obligations.HostMovesWriteOnlyTimersAndKeys := by
  intro m s t hm h
  obtain ⟨rfl, rfl⟩ | ⟨hsound, rfl⟩ | ⟨k, pressed, rfl, rfl⟩ | ⟨x, y, rfl, rfl⟩ := State.move_host_cases hm h
  · exact ⟨rfl, fun hne => absurd rfl hne, fun _ _ => rfl, fun _ => rfl⟩
  · exact ⟨rfl, fun _ => rfl, fun h₁ h₂ => absurd hsound (not_or.mpr ⟨h₁, h₂⟩), fun _ => rfl⟩
  · exact ⟨rfl, fun _ => rfl, fun _ _ => rfl, fun hne => absurd rfl (hne k pressed)⟩
  · exact ⟨rfl, fun _ => rfl, fun _ _ => rfl, fun _ => rfl⟩

/-- Settles O57: the sound operations are one decrement, and sound_tick also reports. -/
theorem ticksDecrementWithClamp : Obligations.TicksDecrementWithClamp := by
  intro s
  have hreport : s.soundTick.1 = true ↔ 0 < s.st.toNat :=
    decide_eq_true_iff.trans (BitVec.toNat_ne.trans Nat.pos_iff_ne_zero.symm)
  exact ⟨⟨tickDown_toNat s.dt, rfl⟩, ⟨tickDown_toNat s.st, rfl⟩, hreport, tickDown_toNat s.st, rfl⟩

/-- Settles O58: the write into the key array is dropped outside its bounds. -/
theorem setKeyIsBoundsChecked : Obligations.SetKeyIsBoundsChecked := by
  intro s k pressed
  refine ⟨fun hk => ?_, ?_⟩
  · rw [State.setKey, Vector.setIfInBounds_eq_of_size_le hk]
  · rintro j rfl
    refine ⟨Vector.getElem_setIfInBounds_self j.isLt, fun i hij => ?_, rfl⟩
    exact Vector.getElem_setIfInBounds_ne i.isLt fun hval => hij (Fin.ext hval.symm)

/-- Settles O59. -/
theorem pixelQueryReadsOneCell : Obligations.PixelQueryReadsOneCell := by
  intro s x y
  refine ⟨?_, fun hout => ?_⟩
  · rintro row col rfl rfl
    exact dif_pos ⟨col.isLt, row.isLt⟩
  · exact dif_neg (by omega)

/-! ### The invariant under every schedule -/

/-- One move keeps the invariant: a step does, and it does not speak of what a host operation writes. -/
theorem State.Inv.move (hs : s.Inv) (h : s.move m = .next t) : t.Inv := by
  by_cases hm : m = .execute
  · subst hm
    exact stepKeepsInvariant s t hs h
  · obtain ⟨hframe, -⟩ := hostMovesWriteOnlyTimersAndKeys m s t hm h
    rw [hframe]
    exact hs

/-- Settles O23, by induction on the schedule. -/
theorem anyScheduleKeepsInvariant : Obligations.AnyScheduleKeepsInvariant := by
  intro ms
  induction ms with
  | nil =>
    intro s t hs h
    cases h
    exact hs
  | cons m ms ih =>
    intro s t hs h
    obtain ⟨u, hmove, hrest⟩ := State.moves_cons h
    exact ih u t (hs.move hmove) hrest

/-! ### Construction -/

/-- The image hides nothing outside itself: there the bytes written before it remain (spec/70_reset_and_hazards.md R281). -/
theorem read_constructedMemory_outside (fill : Byte) (font : Vector Byte 80) {image : List Byte} {a : Nat}
    (h : a < progStart ∨ progStart + image.length ≤ a) (ha : a < 0x1000) :
    ((Memory.writeBytes [] 0 (initialBytes fill font)).writeBytes progStart image).read a =
      (initialBytes fill font)[a]'(by simpa using ha) :=
  (Memory.read_writeBytes_outside h).trans (read_initialBytes fill font ha)

/-- Settles O2: the image is written last, over the font and the fill. -/
theorem constructLoadsFontAndImage : Obligations.ConstructLoadsFontAndImage := by
  intro p fill font image
  refine ⟨fun hlen => if_pos hlen, fun hlen => ⟨_, if_neg (Nat.not_lt.mpr hlen), fun k hk => ?_, fun a ha => ?_,
    fun a hfont hout ha => ?_, rfl, rfl, rfl, rfl, rfl, rfl, rfl, rfl, rfl, rfl, rfl⟩⟩
  · exact Memory.read_writeBytes_inside (wf_initialBytes fill font) (Nat.add_le_add_left hlen progStart) hk
  · rw [read_constructedMemory_outside fill font (.inl (ha.trans (by decide))) (by omega), getElem_initialBytes_font fill font ha]
  · rw [read_constructedMemory_outside fill font hout ha, getElem_initialBytes_fill fill font hfont ha]

end Sys2Proof.Machine
end
